-- ==== Sys2Proof/Word.lean ====
section
/-! DEFINITION. The word types of the HCC: 32-bit registers (spec 00_scope.md rule R5, `REG_W`) and stream bytes. -/

namespace Sys2Proof

/-- A register, a command word or an integer field: `REG_W` = 32 bits (rule R5).  Every value is unsigned (rule R7). -/
abbrev Word := BitVec 32

/-- A byte of a stream, of the payload buffer, or of the 8-bit writer and reader buffers (`BIT_BUF_W`, rule R5). -/
abbrev Byte := BitVec 8

end Sys2Proof
end

