-- ==== Sys2Proof/Syntax.lean ====
section
/-! DEFINITION. The commands of HCC-1, one constructor per row of spec/opcode_table.json (30_encoding.md rule R93).

An operand's type is its field's width in the command word (rule R92), so a value the encoding does not admit cannot be
written down.  Operands that travel outside the word (the `ARG` of `WINT` and `ENCODE`, the byte sequence of `ROPEN`) are
read from the state. -/

namespace Sys2Proof

/-- A command of HCC-1 (rule R93). -/
inductive Instr where
  /-- `NOP`, rule R250. -/
  | nop
  /-- `SRST`, rule R251. -/
  | srst
  /-- `WOPEN`, rule R121. -/
  | wopen
  /-- `WBIT b`, rule R122. -/
  | wbit (b : Bool)
  /-- `WBYTE v`, rule R123. -/
  | wbyte (v : Byte)
  /-- `WCHAR V, W`, rule R124: value `V = c[31:16]`, width `W = c[12:8]`. -/
  | wchar (V : BitVec 16) (W : BitVec 5)
  /-- `WINT`, rule R125. -/
  | wint
  /-- `WFLUSH`, rule R126. -/
  | wflush
  /-- `WCLOSE`, rule R127. -/
  | wclose
  /-- `ROPEN`, rule R151. -/
  | ropen
  /-- `RBIT`, rule R152. -/
  | rbit
  /-- `RBYTE`, rule R153. -/
  | rbyte
  /-- `RINT`, rule R154. -/
  | rint
  /-- `RAVAIL`, rule R155. -/
  | ravail
  /-- `RCLOSE`, rule R156. -/
  | rclose
  /-- `ENCODE`, rule R180. -/
  | encode
  /-- `DECODE`, rule R220. -/
  | decode
  deriving DecidableEq, Repr

end Sys2Proof
end

