-- ==== Sys2Proof/WellFormed.lean ====
section
/-! DEFINITION. Which commands are well-formed: those whose operands are legal at execution.

The types of `Instr` already keep every operand inside its field.  What is left to check is the one thing the spec calls a
bad operand: a `WCHAR` width outside 1..16, or a value with a set bit at or above bit `W` (30_encoding.md rule R92,
41_bitwriter.md rule R124).  An ill-formed `WCHAR` still has a word and still decodes; it executes as the fault
`BAD_OPERAND`, so no meaning and no step assumes well-formedness. -/

namespace Sys2Proof

/-- The width check of rule R124: `1 ≤ W ≤ 16`. -/
def widthLegal (W : BitVec 5) : Bool :=
  decide (1 ≤ W.toNat ∧ W.toNat ≤ 16)

/-- The value check of rule R124: `V < 2^W`. -/
def valueFits (V : BitVec 16) (W : BitVec 5) : Bool :=
  decide (V.toNat < 2 ^ W.toNat)

/-- A command whose operands are legal at execution (rules R92 and R124). -/
def Instr.wellFormed : Instr → Bool
  | .wchar V W => widthLegal W && valueFits V W
  | .wbit _ | .wbyte _ => true
  | .nop | .srst | .wopen | .wint | .wflush | .wclose => true
  | .ropen | .rbit | .rbyte | .rint | .ravail | .rclose => true
  | .encode | .decode => true

end Sys2Proof
end

