-- ==== Sys2Proof/Decode.lean ====
section
/-! DEFINITION. The command word: its fields, the decoder and the encoder (30_encoding.md rules R90 to R97).

`decode` is total on every 32-bit word: it answers a command or a rejection that says which check of rule R95 failed. -/

namespace Sys2Proof

/-! ## Opcodes (rule R93) -/

def opNOP    : Byte := 0x00#8
def opSRST   : Byte := 0x01#8
def opWOPEN  : Byte := 0x10#8
def opWBIT   : Byte := 0x11#8
def opWBYTE  : Byte := 0x12#8
def opWCHAR  : Byte := 0x13#8
def opWINT   : Byte := 0x14#8
def opWFLUSH : Byte := 0x15#8
def opWCLOSE : Byte := 0x16#8
def opROPEN  : Byte := 0x20#8
def opRBIT   : Byte := 0x21#8
def opRBYTE  : Byte := 0x22#8
def opRINT   : Byte := 0x23#8
def opRAVAIL : Byte := 0x24#8
def opRCLOSE : Byte := 0x25#8
def opENCODE : Byte := 0x30#8
def opDECODE : Byte := 0x31#8

/-- The opcode of a command (rule R93). -/
def Instr.opcode : Instr → Byte
  | .nop => opNOP
  | .srst => opSRST
  | .wopen => opWOPEN
  | .wbit _ => opWBIT
  | .wbyte _ => opWBYTE
  | .wchar _ _ => opWCHAR
  | .wint => opWINT
  | .wflush => opWFLUSH
  | .wclose => opWCLOSE
  | .ropen => opROPEN
  | .rbit => opRBIT
  | .rbyte => opRBYTE
  | .rint => opRINT
  | .ravail => opRAVAIL
  | .rclose => opRCLOSE
  | .encode => opENCODE
  | .decode => opDECODE

/-- The `MASK` column of rule R94: the bits of the word that must equal `MATCH = 0x000000OP`. -/
def Instr.mask : Instr → Word
  | .wbit _ => 0xFFFEFFFF#32
  | .wbyte _ => 0xFF00FFFF#32
  | .wchar _ _ => 0x0000E0FF#32
  | .nop | .srst | .wopen | .wint | .wflush | .wclose => 0xFFFFFFFF#32
  | .ropen | .rbit | .rbyte | .rint | .ravail | .rclose => 0xFFFFFFFF#32
  | .encode | .decode => 0xFFFFFFFF#32

/-! ## Fields of the word (rules R90 and R92) -/

/-- `OP = c[7:0]`. -/
def opcodeField (c : Word) : Byte := c.extractLsb' 0 8

/-- Format B: `b = c[16]`. -/
def bitOperand (c : Word) : Bool := c.getLsbD 16

/-- Format Y: `v = c[23:16]`. -/
def byteOperand (c : Word) : Byte := c.extractLsb' 16 8

/-- Format C: `V = c[31:16]`. -/
def charOperand (c : Word) : BitVec 16 := c.extractLsb' 16 16

/-- Format C: `W = c[12:8]`. -/
def widthOperand (c : Word) : BitVec 5 := c.extractLsb' 8 5

/-! ## Decoding (rule R95) -/

/-- Why a word is not a command (rules R95 and R96).  Both reasons raise `ILLEGAL_CMD`. -/
inductive DecodeReject where
  /-- `OP` is not in the table of rule R93. -/
  | unassignedOpcode (op : Byte)
  /-- `OP` is assigned, but a must-be-zero field is nonzero: `(c & MASK) ≠ MATCH` (rule R94). -/
  | mustBeZero (op : Byte)
  deriving DecidableEq, Repr

/-- The row of rule R93 that an opcode selects, with the operands of rule R92 taken from the word. -/
def commandOf (op : Byte) (c : Word) : Option Instr :=
  if op = opNOP then some .nop
  else if op = opSRST then some .srst
  else if op = opWOPEN then some .wopen
  else if op = opWBIT then some (.wbit (bitOperand c))
  else if op = opWBYTE then some (.wbyte (byteOperand c))
  else if op = opWCHAR then some (.wchar (charOperand c) (widthOperand c))
  else if op = opWINT then some .wint
  else if op = opWFLUSH then some .wflush
  else if op = opWCLOSE then some .wclose
  else if op = opROPEN then some .ropen
  else if op = opRBIT then some .rbit
  else if op = opRBYTE then some .rbyte
  else if op = opRINT then some .rint
  else if op = opRAVAIL then some .ravail
  else if op = opRCLOSE then some .rclose
  else if op = opENCODE then some .encode
  else if op = opDECODE then some .decode
  else none

/-- Command decode, rule R95: the opcode check, then the must-be-zero check.  Total on every word (rule R97). -/
def decode (c : Word) : Except DecodeReject Instr :=
  match commandOf (opcodeField c) c with
  | none => .error (.unassignedOpcode (opcodeField c))
  | some i =>
    if c &&& i.mask = i.opcode.setWidth 32 then .ok i
    else .error (.mustBeZero (opcodeField c))

/-! ## Encoding (rules R91 and R122 to R124) -/

/-- The operand bits of a command's word: `b << 16`, `v << 16`, or `(W << 8) | (V << 16)`; zero in format N. -/
def Instr.operandBits : Instr → Word
  | .wbit b => (BitVec.ofBool b).setWidth 32 <<< 16
  | .wbyte v => v.setWidth 32 <<< 16
  | .wchar V W => (W.setWidth 32 <<< 8) ||| (V.setWidth 32 <<< 16)
  | .nop | .srst | .wopen | .wint | .wflush | .wclose => 0#32
  | .ropen | .rbit | .rbyte | .rint | .ravail | .rclose => 0#32
  | .encode | .decode => 0#32

/-- The word of a command: its opcode, with its operand bits (rule R91). -/
def encode (i : Instr) : Word := i.opcode.setWidth 32 ||| i.operandBits

/-- The decoder on a row of spec/opcode_table.json: a command is one 32-bit word and register accesses move whole words, so
there is no byte order to undo (rules R69 and R90).  Bits above `nbits` are 0. -/
def decodeTableWord (nbits w : Nat) : Option Instr :=
  match decode (BitVec.ofNat 32 (w % 2 ^ nbits)) with
  | .ok i => some i
  | .error _ => none

end Sys2Proof
end

