-- ==== Sys2Proof/Config.lean ====
section
/-! DEFINITION. What an implementation fixes, and the values the spec leaves free.

Fixed for HCC-1 (00_scope.md rule R5): `nodeCap`, `idValue`.  Left to the implementation: `PAYLOAD_CAP`.  Left free:
the bytes of `PBUF` that nothing has written (20_memory.md rule R62) and the codec's working storage between commands
(10_state.md rule R53).  A free value is an opaque constant: no proof can see what it is. -/

namespace Sys2Proof.Config

/-- `NODE_CAP` = 511 trie nodes (rules R5 and R49). -/
def nodeCap : Nat := 511

/-- `ID_VALUE`, the ASCII bytes "HCC1" (rules R5 and R31). -/
def idValue : Word := 0x48434331#32

/-- How far `PAYLOAD_CAP` lies below its largest value, 2^32 − 1.  The spec leaves `PAYLOAD_CAP` open in 1..2^32 − 1 (rule
R5); measured this way the type says the range.  See notes/assumptions/4.md. -/
opaque payloadCapSlack : Fin 4294967295

/-- `PAYLOAD_CAP` of the machine `State.reset` describes: some number in 1..2^32 − 1 (rule R5). -/
def payloadCap : Word := BitVec.ofNat 32 (4294967295 - payloadCapSlack.val)

/-- What the `n`-th reading of unwritten storage finds at byte index `i` of `PBUF`: a free value (rule R62).
See notes/assumptions/5.md. -/
opaque undefByte (n i : Nat) : Byte

/-- The kind of a node record (rule R49). -/
inductive NodeKind where
  | leaf
  | internal
  deriving DecidableEq, Repr, Inhabited

/-- A record of `NODE` (rule R49). -/
structure NodeRecord where
  kind : NodeKind
  value : Byte
  left : Nat
  right : Nat
  weight : Word
  seq : Nat
  deriving DecidableEq, Repr, Inhabited

/-- An entry of `CODE`: a bit string and its length (rule R51). -/
structure CodeEntry where
  len : Nat
  bits : List Bool
  deriving DecidableEq, Repr, Inhabited

/-- The codec's working storage, rules R48 to R52. -/
structure WorkingStorage where
  /-- `FREQ[0..255]` (rule R48). -/
  freq : Vector Word 256
  /-- `NODE[0..510]` (rule R49). -/
  node : Vector NodeRecord 511
  /-- `NTOP`, 0..511 (rule R49). -/
  ntop : Nat
  /-- `PQ`: node indices (rule R50). -/
  pq : List Nat
  /-- `CODE[0..255]` (rule R51). -/
  code : Vector CodeEntry 256
  /-- `STACK` (rule R52). -/
  stack : List Nat
  deriving DecidableEq, Repr, Inhabited

/-- What the working storage holds between commands, after the `n`-th time it became unspecified: a free value
(rule R53).  See notes/assumptions/6.md. -/
opaque workingStorage (n : Nat) : WorkingStorage

end Sys2Proof.Config
end

