-- ==== Sys2Proof/Machine/State.lean ====
section
/-! DEFINITION. The state of the HCC (10_state.md rule R20), the reasons a step can stop, and reset (rules R55 and R290). -/

namespace Sys2Proof.Machine

/-! ## The fault record -/

/-- The fault codes of 60_exceptions.md rule R261.  These are the HCC's own faults, recorded in `ERR.CODE`; a command that
raises one goes on to a next state. -/
inductive FaultCode where
  | none
  | illegalCmd
  | badOperand
  | notOpen
  | alreadyOpen
  | streamExhausted
  | corruptStream
  | trieOverflow
  | lengthTooLarge
  | cmdWhileBusy
  | pbufRange
  deriving DecidableEq, Repr

/-- `ERR.PHASE` (rule R28): the stage of `DECODE` that faulted. -/
inductive Phase where
  | none
  | trie
  | length
  | symbols
  deriving DecidableEq, Repr

/-- What `ERR` records (rule R28): the reserved bits read 0, so the three fields are the whole register. -/
structure ErrRecord where
  code : FaultCode
  opc : Byte
  phase : Phase
  deriving DecidableEq, Repr

/-! ## The two bit streams -/

/-- The bit writer (rule R40) with its sink `WOUT` (20_memory.md rule R64). -/
structure Writer where
  /-- `W.buf`: the bits since the last byte boundary, right-aligned. -/
  buf : Byte
  /-- `W.count`: how many, 0..7. -/
  count : Nat
  /-- `W.open`. -/
  isOpen : Bool
  /-- `WOUT`, in emission order. -/
  out : List Byte
  deriving DecidableEq, Repr

/-- The bit reader (rule R44) with its source `RIN` (20_memory.md rule R65). -/
structure Reader where
  /-- `R.buf`: the byte most recently taken. -/
  buf : Byte
  /-- `R.count`: its bits not yet consumed, 0..8. -/
  count : Nat
  /-- `R.open`. -/
  isOpen : Bool
  /-- `RIN`: the bytes not yet taken. -/
  rin : List Byte
  deriving DecidableEq, Repr

/-! ## The payload buffer and the host -/

/-- A byte-addressed store: `(index, byte)` pairs, indices strictly rising.  An index that is not listed has never been
written and holds no value (`undef`, rule R62). -/
abbrev Memory := List Host.Cell

/-- What the host does to the block (20_memory.md rule R81). -/
inductive HostAction where
  /-- A register read of `width` bits at byte offset `offset`. -/
  | read (width offset : Nat)
  /-- A register write.  `stream` is the byte sequence the host delivers with an `ROPEN` (rule R151); no other write uses it. -/
  | write (width offset : Nat) (data : Word) (stream : List Byte)
  /-- Hardware reset (70_reset_and_hazards.md rule R290), which comes between commands. -/
  | hardReset
  deriving DecidableEq, Repr

/-! ## The state -/

/-- The state of the HCC.  The fields up to `pbuf` are rule R20's; the last five are the model's own. -/
structure State where
  /-- `STATUS.BUSY` (rule R25). -/
  busy : Bool
  /-- `STATUS.FAULT` (rule R26). -/
  fault : Bool
  /-- `ERR` (rule R28). -/
  err : ErrRecord
  /-- `ARG` (rule R29). -/
  arg : Word
  /-- `RESULT` (rule R30). -/
  result : Word
  /-- `DCOUNT` (rule R35). -/
  dcount : Word
  /-- `PADDR` (rule R36). -/
  paddr : Word
  /-- `PCAP`: the parameter `PAYLOAD_CAP`, which nothing changes (rule R32). -/
  payloadCap : Word
  /-- `W.buf`, `W.count`, `W.open` and `WOUT`. -/
  writer : Writer
  /-- `R.buf`, `R.count`, `R.open` and `RIN`. -/
  reader : Reader
  /-- `DOUT` (20_memory.md rule R66). -/
  dout : List Byte
  /-- `PBUF` (rule R62). -/
  pbuf : Memory
  /-- Model: the host's actions still to come, the next one first (notes/assumptions/1.md). -/
  pending : List HostAction
  /-- Model: the byte sequence on offer to the command being executed (notes/assumptions/2.md). -/
  offered : List Byte
  /-- Model: the words register reads have returned to the host, oldest first (notes/assumptions/3.md). -/
  hostReads : List Word
  /-- Model: how many times unwritten `PBUF` storage has been read (notes/assumptions/5.md). -/
  undefDraws : Nat
  /-- Model: how many times the working storage has become unspecified (notes/assumptions/6.md). -/
  workDraws : Nat
  deriving DecidableEq, Repr

/-- Reasons for the machine to stop with a fault: there are none.  Every fault of the HCC is recorded in `ERR` and the block
goes on (60_exceptions.md rules R260 and R266); no command ends a run.  See notes/assumptions/8.md. -/
inductive Fault where
  deriving DecidableEq, Repr

/-- Reasons for the model to give a step no meaning. -/
inductive Refusal where
  /-- An arm of `exec` with no meaning yet.  Raised by no arm.  Safe. -/
  | notModelled (mnemonic : String)
  /-- A host access that is not 32 bits wide, not at a multiple of 4, or beyond 0x3C: rule R61 gives it no step.  Raised by the
  register port.  Safe. -/
  | illFormedAccess (width offset : Nat)
  /-- A host access other than a `STATUS` read while `BUSY = 1`: rule R300 gives it no step.  Raised by the register port, and
  only from states no run reaches, since a command is one step.  Safe. -/
  | accessWhileBusy (offset : Nat)
  deriving DecidableEq, Repr

/-! ## Reset -/

/-- No fault recorded: `ERR` = 0 (rule R55). -/
def ErrRecord.clear : ErrRecord := ⟨.none, 0#8, .none⟩

/-- A closed writer over an empty `WOUT` (rule R55). -/
def Writer.closed : Writer := ⟨0#8, 0, false, []⟩

/-- A closed reader over an empty `RIN` (rule R55). -/
def Reader.closed : Reader := ⟨0#8, 0, false, []⟩

/-- The block right after hardware reset, for any payload capacity (rules R55 and R290), with no host action pending. -/
def State.resetWith (cap : Word) : State where
  busy := false
  fault := false
  err := ErrRecord.clear
  arg := 0#32
  result := 0#32
  dcount := 0#32
  paddr := 0#32
  payloadCap := cap
  writer := Writer.closed
  reader := Reader.closed
  dout := []
  pbuf := []
  pending := []
  offered := []
  hostReads := []
  undefDraws := 0
  workDraws := 0

/-- The block right after hardware reset; its payload capacity is the open parameter `PAYLOAD_CAP` (rules R5 and R55). -/
def State.reset : State := State.resetWith Config.payloadCap

end Sys2Proof.Machine
end

