-- ==== Sys2Proof/Machine/Memory.lean ====
section
/-! DEFINITION. The payload buffer as a sparse store (20_memory.md rule R62): reading, writing, and its canonical form. -/

namespace Sys2Proof.Machine

/-- The canonical form: indices strictly rising.  An unlisted index has no value, so no listed entry repeats it. -/
def Memory.wf : Memory → Bool
  | [] => true
  | [_] => true
  | (a, _) :: (b, y) :: rest => decide (a < b) && Memory.wf ((b, y) :: rest)

/-- The byte at index `i`, or `none` where nothing has been written (`undef`). -/
def Memory.read : Memory → Nat → Option Byte
  | [], _ => none
  | (a, x) :: rest, i => if a = i then some x else Memory.read rest i

/-- `PBUF[i] <- v`, keeping the canonical form. -/
def Memory.write : Memory → Nat → Byte → Memory
  | [], i, v => [(i, v)]
  | (a, x) :: rest, i, v =>
    if i < a then (i, v) :: (a, x) :: rest
    else if i = a then (i, v) :: rest
    else (a, x) :: Memory.write rest i v

end Sys2Proof.Machine
end

