-- ==== Sys2Proof/Machine/Ops.lean ====
section
/-! DEFINITION. The shared operations: recording a fault, the bit writer's and the bit reader's primitives, and reset.

A fault of the HCC runs no handler and saves nothing beyond `ERR` (60_exceptions.md rule R266), so taking one is `State.raise`,
and there is no return from one: recovery is `State.softReset` or hardware reset (rule R267). -/

namespace Sys2Proof.Machine

/-- How a command ends. -/
abbrev Result := Host.Outcome State Fault Refusal

/-! ## Faults (60_exceptions.md) -/

/-- `raise Fault(code, info)` (rule R262): the first fault since reset or `SRST` is recorded, a later one changes nothing.  The
command stops here, in the state its pseudocode has reached (rule R264). -/
def State.raise (s : State) (code : FaultCode) (opc : Byte) (phase : Phase) : State :=
  if s.fault then s else { s with fault := true, err := ⟨code, opc, phase⟩ }

/-- `ERR.OPC` of a fault raised by a `PDATA` access (rule R261). -/
def opcPDATA : Byte := 0xFF#8

/-- A command that stops by raising a fault outside `DECODE`, where `PHASE` is 0 (rule R262). -/
def faulted (s : State) (code : FaultCode) (opc : Byte) : Result :=
  .next (s.raise code opc .none)

/-! ## Bit strings (00_scope.md rules R7 and R8) -/

/-- The low `n` bits of `v`, most significant first: `V[n-1]` down to `V[0]` (rule R128). -/
def bitsMsb {w : Nat} (v : BitVec w) : Nat → List Bool
  | 0 => []
  | n + 1 => v.getLsbD n :: bitsMsb v n

/-! ## The bit writer (41_bitwriter.md) -/

/-- `WriteBit(b)` (rule R120); the eighth bit of a byte emits it. -/
def Writer.writeBit (w : Writer) (b : Bool) : Writer :=
  let buf := (w.buf <<< 1) ||| (BitVec.ofBool b).setWidth 8
  if w.count + 1 = 8 then { w with buf := 0#8, count := 0, out := w.out ++ [buf] }
  else { w with buf := buf, count := w.count + 1 }

/-- A run of `WriteBit`s, the first bit of the list first. -/
def Writer.writeAll (w : Writer) (bits : List Bool) : Writer :=
  bits.foldl Writer.writeBit w

/-- `WriteBits(V, n)` (rule R128). -/
def Writer.writeBits {k : Nat} (w : Writer) (v : BitVec k) (n : Nat) : Writer :=
  w.writeAll (bitsMsb v n)

/-- `FlushPad()` (rule R129): an aligned writer emits nothing. -/
def Writer.flushPad (w : Writer) : Writer :=
  if 0 < w.count then { w with buf := 0#8, count := 0, out := w.out ++ [w.buf <<< (8 - w.count)] }
  else w

/-! ## The bit reader (42_bitreader.md) -/

/-- What a read leaves: a value and the reader after it, or the reader where the input ended (`raise Fault(XC)`, rule R150). -/
inductive Reading (α : Type) where
  | got (value : α) (r : Reader)
  | ended (r : Reader)
  deriving DecidableEq, Repr

/-- `ReadBit()` (rule R150), with the lazy refill of rule R45. -/
def Reader.readBit (r : Reader) : Reading Bool :=
  if r.count = 0 then
    match r.rin with
    | [] => .ended r
    | x :: rest => .got (x.getLsbD 7) { r with buf := x, count := 7, rin := rest }
  else
    .got (r.buf.getLsbD (r.count - 1)) { r with count := r.count - 1 }

/-- The loop of `ReadBits`: `n` more bits shifted into `acc`.  Bits read before the input ends stay consumed (rule R157). -/
def Reader.readBitsInto (r : Reader) (acc : Word) : Nat → Reading Word
  | 0 => .got acc r
  | n + 1 =>
    match r.readBit with
    | .ended r' => .ended r'
    | .got b r' => r'.readBitsInto ((acc <<< 1) ||| (BitVec.ofBool b).setWidth 32) n

/-- `ReadBits(n)`, `n ≤ 32` (rule R157). -/
def Reader.readBits (r : Reader) (n : Nat) : Reading Word :=
  r.readBitsInto 0#32 n

/-- `Avail()` (rule R160): it counts every unconsumed bit, pad bits included (rule R161), and consumes none. -/
def Reader.avail (r : Reader) : Bool :=
  decide (0 < r.count) || !r.rin.isEmpty

/-! ## Reset (70_reset_and_hazards.md, 45_control.md) -/

/-- The model's own fields carried across a reset: the host's pending actions and what it has read are the host's, and both
kinds of free value are drawn afresh. -/
def State.resetKeepingHost (s : State) : State :=
  { State.resetWith s.payloadCap with
    pending := s.pending
    hostReads := s.hostReads
    undefDraws := s.undefDraws + 1
    workDraws := s.workDraws + 1 }

/-- Hardware reset (rule R290): every piece of state takes the value of rule R55, and `PBUF` becomes `undef`. -/
def State.hardReset (s : State) : State := s.resetKeepingHost

/-- `SRST`'s effect (rule R251): as reset, but `PBUF` keeps its bytes (rule R292). -/
def State.softReset (s : State) : State :=
  { s.resetKeepingHost with pbuf := s.pbuf, undefDraws := s.undefDraws }

end Sys2Proof.Machine
end

