-- ==== Sys2Proof/Machine/Operands.lean ====
section
/-! DEFINITION. The operands commands take from outside the command word: payload bytes of `PBUF` (20_memory.md rules R62 and
R63), and results written to `RESULT` (10_state.md rule R30). -/

namespace Sys2Proof.Machine

/-- `PBUF[i]` as the core or the host reads it.  A byte nothing has written is a free value (rule R62): whatever this reading of
the storage finds there. -/
def State.pbufByte (s : State) (i : Nat) : Byte :=
  match s.pbuf.read i with
  | some x => x
  | none => Config.undefByte s.undefDraws i

/-- `PBUF[i]` has been written since reset. -/
def State.pbufWritten (s : State) (i : Nat) : Bool := (s.pbuf.read i).isSome

/-- `PBUF[0..len-1]`, the payload of `ENCODE` (43_compress.md rule R180). -/
def State.payload (s : State) (len : Nat) : List Byte := (List.range len).map s.pbufByte

/-- Every byte of `PBUF[0..len-1]` has been written. -/
def State.payloadWritten (s : State) (len : Nat) : Bool := (List.range len).all s.pbufWritten

/-- The draw counter after a reading of `PBUF`: a reading that met unwritten storage has used this draw. -/
def State.undefDrawsAfter (s : State) (allWritten : Bool) : Nat :=
  if allWritten then s.undefDraws else s.undefDraws + 1

/-- The codec's working storage between commands (10_state.md rules R48 to R53): no register shows it and no command reads what
an earlier one left, so the state holds only which free value it is. -/
def State.workingStorage (s : State) : Config.WorkingStorage := Config.workingStorage s.workDraws

/-- A read command's end: the value goes to `RESULT`, or the input ended and `RESULT` keeps its value (rules R157 and R264).
The bits consumed stay consumed either way. -/
def State.finishRead (s : State) (opc : Byte) (value : Reading Word) : Result :=
  match value with
  | .got v r => .next { s with reader := r, result := v }
  | .ended r => faulted { s with reader := r } .streamExhausted opc

end Sys2Proof.Machine
end

