-- ==== Sys2Proof/Machine/BitReader.lean ====
section
/-! DEFINITION. The bit reader's commands (42_bitreader.md). -/

namespace Sys2Proof.Machine

/-- `ROPEN` (rule R151): attach the byte sequence the host delivers with the command. -/
def execRopen (s : State) : Result :=
  if s.reader.isOpen then faulted s .alreadyOpen opROPEN
  else .next { s with reader := ⟨0#8, 0, true, s.offered⟩ }

/-- `RBIT` (rule R152). -/
def execRbit (s : State) : Result :=
  if !s.reader.isOpen then faulted s .notOpen opRBIT
  else s.finishRead opRBIT (s.reader.readBits 1)

/-- `RBYTE` (rule R153). -/
def execRbyte (s : State) : Result :=
  if !s.reader.isOpen then faulted s .notOpen opRBYTE
  else s.finishRead opRBYTE (s.reader.readBits 8)

/-- `RINT` (rule R154). -/
def execRint (s : State) : Result :=
  if !s.reader.isOpen then faulted s .notOpen opRINT
  else s.finishRead opRINT (s.reader.readBits 32)

/-- `RAVAIL` (rule R155): consumes nothing and takes no byte. -/
def execRavail (s : State) : Result :=
  if !s.reader.isOpen then faulted s .notOpen opRAVAIL
  else .next { s with result := if s.reader.avail then 1#32 else 0#32 }

/-- `RCLOSE` (rule R156): unread bytes are discarded; no effect on a closed reader. -/
def execRclose (s : State) : Result :=
  if s.reader.isOpen then .next { s with reader := Reader.closed }
  else .next s

end Sys2Proof.Machine
end

