-- ==== Sys2Proof/Machine/BitWriter.lean ====
section
/-! DEFINITION. The bit writer's commands (41_bitwriter.md).  Each checks the stream first, then its operands (60_exceptions.md
rule R265). -/

namespace Sys2Proof.Machine

/-- `WOPEN` (rule R121): a new, empty output stream. -/
def execWopen (s : State) : Result :=
  if s.writer.isOpen then faulted s .alreadyOpen opWOPEN
  else .next { s with writer := ⟨0#8, 0, true, []⟩ }

/-- `WBIT b` (rule R122). -/
def execWbit (b : Bool) (s : State) : Result :=
  if !s.writer.isOpen then faulted s .notOpen opWBIT
  else .next { s with writer := s.writer.writeBit b }

/-- `WBYTE v` (rule R123). -/
def execWbyte (v : Byte) (s : State) : Result :=
  if !s.writer.isOpen then faulted s .notOpen opWBYTE
  else .next { s with writer := s.writer.writeBits v 8 }

/-- `WCHAR V, W` (rule R124): the width is checked before the value. -/
def execWchar (V : BitVec 16) (W : BitVec 5) (s : State) : Result :=
  if !s.writer.isOpen then faulted s .notOpen opWCHAR
  else if !widthLegal W then faulted s .badOperand opWCHAR
  else if !valueFits V W then faulted s .badOperand opWCHAR
  else .next { s with writer := s.writer.writeBits V W.toNat }

/-- `WINT` (rule R125): the 32 bits of `ARG`, big-endian. -/
def execWint (s : State) : Result :=
  if !s.writer.isOpen then faulted s .notOpen opWINT
  else .next { s with writer := s.writer.writeBits s.arg 32 }

/-- `WFLUSH` (rule R126). -/
def execWflush (s : State) : Result :=
  if !s.writer.isOpen then faulted s .notOpen opWFLUSH
  else .next { s with writer := s.writer.flushPad }

/-- `WCLOSE` (rule R127): flush and release; no effect on a closed writer. -/
def execWclose (s : State) : Result :=
  if s.writer.isOpen then .next { s with writer := { s.writer.flushPad with isOpen := false } }
  else .next s

end Sys2Proof.Machine
end

