-- ==== Sys2Proof/Machine/Trie.lean ====
section
/-! DEFINITION. The Huffman trie and the stages of `ENCODE` and `DECODE` that work on it (43_compress.md rules R181 to R189,
44_decompress.md rules R221 to R226).

The spec keeps the trie as records of `NODE` under strict tree ownership (10_state.md rule R49); here it is the tree itself.  The
walks are the recursions the spec gives as the specification of the result (rules R185 and R221). -/

namespace Sys2Proof.Machine

/-- A trie: a leaf holds one byte value, an internal node has a left and a right child (rule R49). -/
inductive Trie where
  | leaf (value : Byte)
  | node (left right : Trie)
  deriving DecidableEq, Repr

/-- The number of leaves. -/
def Trie.leaves : Trie → Nat
  | .leaf _ => 1
  | .node l r => l.leaves + r.leaves

/-- The number of nodes, leaves included. -/
def Trie.size : Trie → Nat
  | .leaf _ => 1
  | .node l r => 1 + l.size + r.size

/-! ## Step 1: frequencies (rule R181) -/

/-- `FREQ[v]` after `Tabulate(L)`: how often `v` occurs in the payload. -/
def frequency (payload : List Byte) (v : Byte) : Nat := payload.count v

/-! ## Step 2: the trie (rules R182 and R183) -/

/-- An entry of `PQ`: a node with its queue key (rules R50 and R183). -/
structure QueueEntry where
  weight : Nat
  seq : Nat
  trie : Trie
  deriving DecidableEq, Repr

/-- The queue order: `(weight, seq)` lexicographically (rule R183). -/
def QueueEntry.before (x y : QueueEntry) : Bool :=
  decide (x.weight < y.weight ∨ (x.weight = y.weight ∧ x.seq < y.seq))

/-- `ExtractMin` on the queue holding `x` and `rest`: the entry with the least key, and the others. -/
def extractMin (x : QueueEntry) : List QueueEntry → QueueEntry × List QueueEntry
  | [] => (x, [])
  | y :: rest =>
    match extractMin y rest with
    | (least, others) => if x.before least then (x, y :: rest) else (least, x :: others)

/-- `NewInternal(x, y)`: the first extracted is the left child, the second the right (rule R183). -/
def newInternal (seq : Nat) (x y : QueueEntry) : QueueEntry :=
  ⟨x.weight + y.weight, seq, .node x.trie y.trie⟩

/-- The merge loop of rule R183 on the queue holding `x` and `rest`; `seq` is `NTOP`.  Each pass shortens the queue by one, so
`fuel` = the length of `rest` reaches the end. -/
def mergeLoop : (fuel seq : Nat) → (x : QueueEntry) → (rest : List QueueEntry) → Trie
  | 0, _, x, _ => x.trie
  | fuel + 1, seq, x, rest =>
    match extractMin x rest with
    | (least, []) => least.trie
    | (least, y :: others) =>
      match extractMin y others with
      | (second, remaining) => mergeLoop fuel (seq + 1) (newInternal seq least second) remaining

/-- The byte values that occur, ascending, with their counts (rule R182). -/
def occurring (payload : List Byte) : List (Byte × Nat) :=
  (List.range 256).filterMap fun v =>
    if 0 < frequency payload (BitVec.ofNat 8 v) then
      some (BitVec.ofNat 8 v, frequency payload (BitVec.ofNat 8 v))
    else none

/-- The leaves `BuildTrie` allocates, in order, with their weights: those that occur, and the synthetic zero-weight leaves when
fewer than two values occur (rule R182).  The result is the first leaf and the others. -/
def leafWeights (payload : List Byte) : (Byte × Nat) × List (Byte × Nat) :=
  match occurring payload with
  | [] => ((0#8, 0), [(1#8, 0)])
  | [u] => (u, [(if u.1 = 0#8 then 1#8 else 0#8, 0)])
  | u :: v :: rest => (u, v :: rest)

/-- `NewLeaf` on each leaf in turn; `seq` counts the allocations (rule R182). -/
def newLeaves : (seq : Nat) → List (Byte × Nat) → List QueueEntry
  | _, [] => []
  | seq, (v, w) :: rest => ⟨w, seq, .leaf v⟩ :: newLeaves (seq + 1) rest

/-- `BuildTrie()` (rules R182 and R183). -/
def buildTrie (payload : List Byte) : Trie :=
  match leafWeights payload with
  | ((v, w), rest) => mergeLoop rest.length (rest.length + 1) ⟨w, 0, .leaf v⟩ (newLeaves 1 rest)

/-! ## Step 3: the codes (rule R185) -/

/-- `Walk(n, p)`: the leaves in pre-order with the paths to them, 0 for a left edge and 1 for a right edge. -/
def Trie.walk : Trie → (path : List Bool) → List (Byte × List Bool)
  | .leaf v, p => [(v, p)]
  | .node l r, p => l.walk (p ++ [false]) ++ r.walk (p ++ [true])

/-- `CODE[v].bits` in a code table; empty where `v` has no leaf (`CODE[v].len = 0`, rule R51). -/
def codeOf (table : List (Byte × List Bool)) (v : Byte) : List Bool :=
  match table.lookup v with
  | some p => p
  | none => []

/-- `DeriveCodes(root)`. -/
def deriveCodes (root : Trie) : List (Byte × List Bool) := root.walk []

/-! ## Steps 4 to 6: the bits (rules R186, R187 and R189) -/

/-- `SerializeTrie`: pre-order, `1` and eight value bits for a leaf, `0` for an internal node. -/
def Trie.serialize : Trie → List Bool
  | .leaf v => true :: bitsMsb v 8
  | .node l r => false :: (l.serialize ++ r.serialize)

/-- `EmitSymbols`: each payload byte's code, in order. -/
def symbolBits (table : List (Byte × List Bool)) (payload : List Byte) : List Bool :=
  payload.flatMap (codeOf table)

/-- Every bit an `ENCODE` writes: the trie, the 32-bit length, the symbols (rule R180). -/
def payloadBits (root : Trie) (len : Word) (payload : List Byte) : List Bool :=
  root.serialize ++ (bitsMsb len 32 ++ symbolBits (deriveCodes root) payload)

/-! ## Reading a trie (rules R221 and R222) -/

/-- How a trie read ends: a trie with `NTOP` and the reader after it, the input ended, or a 512th node was needed. -/
inductive TrieReading where
  | got (t : Trie) (ntop : Nat) (r : Reader)
  | ended (r : Reader)
  | overflow (r : Reader)
  deriving DecidableEq, Repr

/-- `ReadTrie()` with `NTOP = ntop`.  The nesting depth never exceeds `NTOP`, so with `fuel = NODE_CAP` at the root the fuel runs
out only where `NTOP = NODE_CAP`, and both are the overflow of rule R222. -/
def readTrie : (fuel ntop : Nat) → Reader → TrieReading
  | 0, _, r => .overflow r
  | fuel + 1, ntop, r =>
    if ntop = Config.nodeCap then .overflow r
    else
      match r.readBit with
      | .ended r1 => .ended r1
      | .got true r1 =>
        match r1.readBits 8 with
        | .ended r2 => .ended r2
        | .got v r2 => .got (.leaf (v.setWidth 8)) (ntop + 1) r2
      | .got false r1 =>
        match readTrie fuel (ntop + 1) r1 with
        | .ended r2 => .ended r2
        | .overflow r2 => .overflow r2
        | .got left ntop2 r2 =>
          match readTrie fuel ntop2 r2 with
          | .ended r3 => .ended r3
          | .overflow r3 => .overflow r3
          | .got right ntop3 r3 => .got (.node left right) ntop3 r3

/-! ## Decoding symbols (rules R224 to R227) -/

/-- `DecodeOne(root)`: one descent to a leaf.  At a leaf no bit is read (rule R227). -/
def decodeOne : Trie → Reader → Reading Byte
  | .leaf v, r => .got v r
  | .node left right, r =>
    match r.readBit with
    | .ended r1 => .ended r1
    | .got false r1 => decodeOne left r1
    | .got true r1 => decodeOne right r1

/-- Where `DecodeSymbols` has got to: the reader, `DOUT` and `DCOUNT`. -/
structure SymbolRun where
  reader : Reader
  dout : List Byte
  dcount : Word
  /-- All `N` symbols were decoded; false where the input ended first. -/
  complete : Bool
  deriving DecidableEq, Repr

/-- `DecodeSymbols(root, n)`: each symbol goes to `DOUT` and is counted as soon as its leaf is reached (rule R226). -/
def decodeSymbols (root : Trie) : (n : Nat) → Reader → (dout : List Byte) → (dcount : Word) → SymbolRun
  | 0, r, dout, dcount => ⟨r, dout, dcount, true⟩
  | n + 1, r, dout, dcount =>
    match decodeOne root r with
    | .ended r1 => ⟨r1, dout, dcount, false⟩
    | .got v r1 => decodeSymbols root n r1 (dout ++ [v]) (dcount + 1#32)

end Sys2Proof.Machine
end

