-- ==== Sys2Proof/Machine/Compress.lean ====
section
/-! DEFINITION. `ENCODE` (43_compress.md). -/

namespace Sys2Proof.Machine

/-- `ENCODE` (rule R180): compress `PBUF[0..ARG-1]` onto the open bitstream.  Once the two checks pass it cannot fault (rule
R196).  The working storage is unspecified afterwards (10_state.md rule R53). -/
def execEncode (s : State) : Result :=
  if !s.writer.isOpen then faulted s .notOpen opENCODE
  else if s.payloadCap < s.arg then faulted s .lengthTooLarge opENCODE
  else
    let payload := s.payload s.arg.toNat
    let root := buildTrie payload
    .next { s with
      writer := s.writer.writeAll (payloadBits root s.arg payload)
      result := BitVec.ofNat 32 root.leaves
      undefDraws := s.undefDrawsAfter (s.payloadWritten s.arg.toNat)
      workDraws := s.workDraws + 1 }

end Sys2Proof.Machine
end

