-- ==== Sys2Proof/Machine/Control.lean ====
section
/-! DEFINITION. The control commands (45_control.md). -/

namespace Sys2Proof.Machine

/-- `NOP` (rule R250): no state changes. -/
def execNop (s : State) : Result := .next s

/-- `SRST` (rule R251): every item takes its reset value, except `PBUF`.  The writer is not flushed. -/
def execSrst (s : State) : Result := .next s.softReset

end Sys2Proof.Machine
end

