-- ==== Sys2Proof/Machine/Decompress.lean ====
section
/-! DEFINITION. `DECODE` (44_decompress.md). -/

namespace Sys2Proof.Machine

/-- A fault inside `DECODE`: `PHASE` is recorded (60_exceptions.md rule R262), and everything read and emitted before it stays
(rule R229). -/
def decodeFaulted (s : State) (code : FaultCode) (phase : Phase) : Result :=
  .next (s.raise code opDECODE phase)

/-- Phase 3: decode `n` symbols; `RESULT <- N` comes last (rules R220 and R224). -/
def decodePhaseSymbols (root : Trie) (n : Word) (s : State) : Result :=
  let run := decodeSymbols root n.toNat s.reader s.dout s.dcount
  let s' := { s with reader := run.reader, dout := run.dout, dcount := run.dcount }
  if run.complete then .next { s' with result := n }
  else decodeFaulted s' .corruptStream .symbols

/-- Phase 2: read the 32-bit length `N` (rule R223). -/
def decodePhaseLength (root : Trie) (s : State) : Result :=
  match s.reader.readBits 32 with
  | .ended r => decodeFaulted { s with reader := r } .corruptStream .length
  | .got n r => decodePhaseSymbols root n { s with reader := r }

/-- Phase 1: read the trie (rules R221 and R222). -/
def decodePhaseTrie (s : State) : Result :=
  match readTrie Config.nodeCap 0 s.reader with
  | .ended r => decodeFaulted { s with reader := r } .corruptStream .trie
  | .overflow r => decodeFaulted { s with reader := r } .trieOverflow .trie
  | .got root _ r => decodePhaseLength root { s with reader := r }

/-- `DECODE` (rule R220): decode one payload from the reader's current position. -/
def execDecode (s : State) : Result :=
  if !s.reader.isOpen then faulted s .notOpen opDECODE
  else decodePhaseTrie { s with dcount := 0#32, workDraws := s.workDraws + 1 }

end Sys2Proof.Machine
end

