-- ==== Sys2Proof/Machine/Dispatch.lean ====
section
/-! DEFINITION. One arm per command of HCC-1: the rule its opcode names (30_encoding.md rule R93). -/

namespace Sys2Proof.Machine

/-- Execute a decoded, admitted command (the last line of 30_encoding.md rule R95). -/
def exec (i : Instr) (s : State) : Host.Outcome State Fault Refusal :=
  match i with
  -- control
  | .nop => Sys2Proof.Machine.execNop s
  | .srst => Sys2Proof.Machine.execSrst s
  -- writer
  | .wopen => Sys2Proof.Machine.execWopen s
  | .wbit b => Sys2Proof.Machine.execWbit b s
  | .wbyte v => Sys2Proof.Machine.execWbyte v s
  | .wchar V W => Sys2Proof.Machine.execWchar V W s
  | .wint => Sys2Proof.Machine.execWint s
  | .wflush => Sys2Proof.Machine.execWflush s
  | .wclose => Sys2Proof.Machine.execWclose s
  -- reader
  | .ropen => Sys2Proof.Machine.execRopen s
  | .rbit => Sys2Proof.Machine.execRbit s
  | .rbyte => Sys2Proof.Machine.execRbyte s
  | .rint => Sys2Proof.Machine.execRint s
  | .ravail => Sys2Proof.Machine.execRavail s
  | .rclose => Sys2Proof.Machine.execRclose s
  -- codec
  | .encode => Sys2Proof.Machine.execEncode s
  | .decode => Sys2Proof.Machine.execDecode s

end Sys2Proof.Machine
end

