-- ==== Sys2Proof/Machine/Command.lean ====
section
/-! DEFINITION. Issuing a command: what a host write to `CMD` does (10_state.md rule R23, 30_encoding.md rule R95). -/

namespace Sys2Proof.Machine

/-- The commands the fault gate lets through while `STATUS.FAULT = 1` (rule R95, 60_exceptions.md rule R263). -/
def admittedWhileFaulted : Instr → Bool
  | .nop | .wclose | .rclose | .srst => true
  | .wopen | .wbit _ | .wbyte _ | .wchar _ _ | .wint | .wflush => false
  | .ropen | .rbit | .rbyte | .rint | .ravail => false
  | .encode | .decode => false

/-- Rule R95: an illegal word faults, the fault gate ignores what it does not admit, and any other command executes. -/
def issue (c : Word) (s : State) : Result :=
  match decode c with
  | .error _ => faulted s .illegalCmd (opcodeField c)
  | .ok i =>
    if s.fault && !admittedWhileFaulted i then .next s
    else exec i s

/-- The command is complete or has faulted: `BUSY` is 0 again (rule R25), and nothing is on offer to a later command (20_memory.md
rule R65). -/
def State.commandDone (s : State) : State := { s with busy := false, offered := [] }

/-- A host write of `c` to `CMD`, with the byte sequence the host delivers for it: `BUSY` is 1 while the command runs, which is
one step (20_memory.md rule R77). -/
def writeCMD (c : Word) (stream : List Byte) (s : State) : Result :=
  match issue c { s with busy := true, offered := stream } with
  | .next s' => .next s'.commandDone
  | .fault r => .fault r
  | .refused r => .refused r

end Sys2Proof.Machine
end

