-- ==== Sys2Proof/Machine/Flags.lean ====
section
/-! DEFINITION. The registers that show status: `STATUS`, `ERR`, `WSTATE` and `RSTATE` as 32-bit words (10_state.md rules R24,
R28, R33 and R34).  `STATUS` is the block's only flag register (rule R27). -/

namespace Sys2Proof.Machine

/-- The numbers of rule R261. -/
def FaultCode.toByte : FaultCode → Byte
  | .none => 0x00#8
  | .illegalCmd => 0x01#8
  | .badOperand => 0x02#8
  | .notOpen => 0x03#8
  | .alreadyOpen => 0x04#8
  | .streamExhausted => 0x05#8
  | .corruptStream => 0x06#8
  | .trieOverflow => 0x07#8
  | .lengthTooLarge => 0x08#8
  | .cmdWhileBusy => 0x09#8
  | .pbufRange => 0x0A#8

/-- The numbers of `ERR.PHASE` (rule R28). -/
def Phase.toNibble : Phase → BitVec 4
  | .none => 0#4
  | .trie => 1#4
  | .length => 2#4
  | .symbols => 3#4

/-- A flag as a register bit. -/
def flagBit (b : Bool) (n : Nat) : Word := (BitVec.ofBool b).setWidth 32 <<< n

/-- `STATUS` (rule R24): `BUSY`, `FAULT`, `WOPEN`, `ROPEN` in bits 0 to 3. -/
def State.statusWord (s : State) : Word :=
  flagBit s.busy 0 ||| flagBit s.fault 1 ||| flagBit s.writer.isOpen 2 ||| flagBit s.reader.isOpen 3

/-- `ERR` (rule R28): `CODE[7:0]`, `OPC[15:8]`, `PHASE[19:16]`. -/
def ErrRecord.toWord (e : ErrRecord) : Word :=
  e.code.toByte.setWidth 32 ||| (e.opc.setWidth 32 <<< 8) ||| (e.phase.toNibble.setWidth 32 <<< 16)

/-- `WSTATE` (rule R33): `W.buf` in bits 7:0, `W.count` in bits 10:8. -/
def Writer.stateWord (w : Writer) : Word :=
  w.buf.setWidth 32 ||| ((BitVec.ofNat 3 w.count).setWidth 32 <<< 8)

/-- `RSTATE` (rule R34): `R.buf` in bits 7:0, `R.count` in bits 11:8. -/
def Reader.stateWord (r : Reader) : Word :=
  r.buf.setWidth 32 ||| ((BitVec.ofNat 4 r.count).setWidth 32 <<< 8)

end Sys2Proof.Machine
end

