-- ==== Sys2Proof/Machine/HostPort.lean ====
section
/-! DEFINITION. The register space and the host's accesses to it (10_state.md rules R22 to R38, 20_memory.md rules R61, R63 and
R74). -/

namespace Sys2Proof.Machine

/-- The words of the register space (rule R22). -/
inductive Register where
  | cmd | status | err | arg | result | wstate | rstate | dcount | paddr | pdata | id | pcap
  /-- Offsets 0x30 to 0x3C (rule R38). -/
  | reserved
  deriving DecidableEq, Repr

/-- The register at a byte offset; `none` for an offset rule R61 gives no meaning. -/
def registerAt (offset : Nat) : Option Register :=
  if offset = 0x00 then some .cmd
  else if offset = 0x04 then some .status
  else if offset = 0x08 then some .err
  else if offset = 0x0C then some .arg
  else if offset = 0x10 then some .result
  else if offset = 0x14 then some .wstate
  else if offset = 0x18 then some .rstate
  else if offset = 0x1C then some .dcount
  else if offset = 0x20 then some .paddr
  else if offset = 0x24 then some .pdata
  else if offset = 0x28 then some .id
  else if offset = 0x2C then some .pcap
  else if offset = 0x30 ∨ offset = 0x34 ∨ offset = 0x38 ∨ offset = 0x3C then some .reserved
  else none

/-! ## The `PDATA` port (rule R63) -/

/-- `PADDR < PAYLOAD_CAP`: the access reaches a byte of `PBUF`. -/
def State.paddrInRange (s : State) : Bool := decide (s.paddr < s.payloadCap)

/-- Host write of `d` to `PDATA` (rule R63). -/
def writePDATA (d : Word) (s : State) : State :=
  if s.paddrInRange then
    { s with pbuf := s.pbuf.write s.paddr.toNat (d.setWidth 8), paddr := s.paddr + 1#32 }
  else s.raise .pbufRange opcPDATA .none

/-- The word a host read of `PDATA` returns (rule R63). -/
def readPDATA (s : State) : Word :=
  if s.paddrInRange then (s.pbufByte s.paddr.toNat).setWidth 32 else 0#32

/-- What a host read of `PDATA` does to the block (rule R63). -/
def afterReadPDATA (s : State) : State :=
  if s.paddrInRange then
    { s with paddr := s.paddr + 1#32, undefDraws := s.undefDrawsAfter (s.pbufWritten s.paddr.toNat) }
  else s.raise .pbufRange opcPDATA .none

/-! ## Register reads and writes -/

/-- The word a read of a register returns (rules R23 to R38). -/
def readValue (s : State) : Register → Word
  | .cmd => 0#32
  | .status => s.statusWord
  | .err => s.err.toWord
  | .arg => s.arg
  | .result => s.result
  | .wstate => s.writer.stateWord
  | .rstate => s.reader.stateWord
  | .dcount => s.dcount
  | .paddr => s.paddr
  | .pdata => readPDATA s
  | .id => Config.idValue
  | .pcap => s.payloadCap
  | .reserved => 0#32

/-- What a read does to the block: only `PDATA` has a side effect (rule R74). -/
def afterRead (s : State) : Register → State
  | .pdata => afterReadPDATA s
  | .cmd | .status | .err | .arg | .result | .wstate | .rstate | .dcount | .paddr | .id | .pcap | .reserved => s

/-- A register read: the word goes to the host. -/
def hostRead (s : State) (reg : Register) : State :=
  { afterRead s reg with hostReads := s.hostReads ++ [readValue s reg] }

/-- A register write (rules R23, R29, R36, R37 and R38); a write to a read-only or reserved word is ignored. -/
def hostWrite (s : State) (reg : Register) (data : Word) (stream : List Byte) : Result :=
  match reg with
  | .cmd => writeCMD data stream s
  | .arg => .next { s with arg := data }
  | .paddr => .next { s with paddr := data }
  | .pdata => .next (writePDATA data s)
  | .status | .err | .result | .wstate | .rstate | .dcount | .id | .pcap | .reserved => .next s

/-! ## Host actions -/

/-- The register a legal access reaches: 32 bits wide, at a multiple of 4 up to 0x3C (rule R61). -/
def accessTarget (width offset : Nat) : Option Register :=
  if width = 32 then registerAt offset else none

/-- One host action.  An ill-formed access (rule R61) and an access other than a `STATUS` read while `BUSY = 1` (rule R300) have
no step in the model. -/
def perform (a : HostAction) (s : State) : Result :=
  match a with
  | .read width offset =>
    match accessTarget width offset with
    | none => .refused (.illFormedAccess width offset)
    | some reg =>
      if s.busy && decide (reg ≠ .status) then .refused (.accessWhileBusy offset)
      else .next (hostRead s reg)
  | .write width offset data stream =>
    match accessTarget width offset with
    | none => .refused (.illFormedAccess width offset)
    | some reg =>
      if s.busy then .refused (.accessWhileBusy offset)
      else hostWrite s reg data stream
  | .hardReset => .next s.hardReset

/-- One step of the block: the host's next action, or waiting for one (70_reset_and_hazards.md rule R291). -/
def stepHost (s : State) : Result :=
  match s.pending with
  | [] => .next s
  | a :: rest => perform a { s with pending := rest }

/-- The host action that writes the command word `w` of `nbits` bits to `CMD`, delivering no input bytes. -/
def commandWrite (nbits w : Nat) : HostAction :=
  .write 32 0x00 (BitVec.ofNat 32 (w % 2 ^ nbits)) []

end Sys2Proof.Machine
end

