-- ==== Sys2Proof/Machine/Step.lean ====
section
/-! DEFINITION. The step of the block, and how the host places a command for it.

The block fetches no instructions (10_state.md rule R21): a command comes to it as a host write to `CMD`, so the next host action
stands where another machine's fetch would. -/

namespace Sys2Proof.Machine

/-- One step: the host's next action (rule R77). -/
def step (s : State) : Host.Outcome State Fault Refusal := stepHost s

/-- `s` with a host write of the command word `w` to `CMD` as its next action, and no command running, so that the next step runs
it. -/
def State.withFetchWord (s : State) (nbits w : Nat) : State :=
  { s with pending := commandWrite nbits w :: s.pending, busy := false }

end Sys2Proof.Machine
end

