-- ==== Sys2Proof/Safety.lean ====
section
/-! DEFINITION. The terms claims are stated in: the bit strings on the two streams, a trie's nodes in order, the merge loop as a
relation, the invariant of the state, the observation of a run and what counts as a safe run. -/

namespace Sys2Proof.Machine

/-! ## The bit strings on the streams -/

/-- The bits of a byte sequence, each byte most significant bit first (00_scope.md rule R8). -/
def byteBits (bytes : List Byte) : List Bool := bytes.flatMap fun x => bitsMsb x 8

/-- `S` of the writer conservation law (41_bitwriter.md rule R131): the bits of `WOUT`, then the bits held in `W.buf`. -/
def Writer.written (w : Writer) : List Bool := byteBits w.out ++ bitsMsb w.buf w.count

/-- The unconsumed bits of the reader (42_bitreader.md rule R162): the low `R.count` bits of `R.buf`, then the bytes of `RIN`. -/
def Reader.unread (r : Reader) : List Bool := bitsMsb r.buf r.count ++ byteBits r.rin

/-! ## The trie as a sequence of nodes -/

/-- The nodes in the order `SerializeTrie` writes them and `ReadTrie` reads them (43_compress.md rule R186, 44_decompress.md rule
R221): `none` for an internal node, the value for a leaf. -/
def Trie.preorder : Trie → List (Option Byte)
  | .leaf v => [some v]
  | .node l r => none :: (l.preorder ++ r.preorder)

/-- The bits of one node of a serialized trie (rule R186). -/
def nodeBits : Option Byte → List Bool
  | none => [false]
  | some v => true :: bitsMsb v 8

/-! ## The merge loop as a relation -/

/-- Key order (43_compress.md rule R183): `(weight, seq)`, lexicographic. -/
def QueueEntry.Precedes (x y : QueueEntry) : Prop := x.weight < y.weight ∨ (x.weight = y.weight ∧ x.seq < y.seq)

/-- The queue after part 1 of `BuildTrie` (rule R182): a leaf for each byte value that occurs, ascending, and the synthetic leaves of
weight 0; an entry's `seq` is its place. -/
def leafQueue (payload : List Byte) : List QueueEntry :=
  let counted := (((List.range 256).map (BitVec.ofNat 8)).filter fun v => payload.contains v).map fun v => (v, payload.count v)
  let leaves : List (Byte × Nat) :=
    match counted with
    | [] => [(0#8, 0), (1#8, 0)]
    | [(u, n)] => [(u, n), (if u = 0#8 then 1#8 else 0#8, 0)]
    | u :: v :: more => u :: v :: more
  leaves.zipIdx.map fun c => ⟨c.1.2, c.2, .leaf c.1.1⟩

/-- Part 2 of `BuildTrie` (rule R183) on `queue`, with `NTOP = ntop`, ends at `root`.  One pass takes the least entry `x` and then the
least entry `y` of the others, and puts back an internal node with `x` on the left, `y` on the right, the sum of their weights
and `seq = NTOP`. -/
inductive MergesTo : (ntop : Nat) → (queue : List QueueEntry) → (root : Trie) → Prop where
  | done (ntop : Nat) (x : QueueEntry) : MergesTo ntop [x] x.trie
  | pass {ntop : Nat} {queue rest : List QueueEntry} {x y : QueueEntry} {root : Trie} (contents : queue.Perm (x :: y :: rest))
      (first : ∀ z ∈ y :: rest, x.Precedes z) (second : ∀ z ∈ rest, y.Precedes z)
      (others : MergesTo (ntop + 1) (⟨x.weight + y.weight, ntop, .node x.trie y.trie⟩ :: rest) root) : MergesTo ntop queue root

/-! ## The invariant -/

/-- Rule R40's invariant, and a closed writer is aligned (rules R55, R127 and R251). -/
structure Writer.Inv (w : Writer) : Prop where
  count_le : w.count ≤ 7
  buf_lt : w.buf.toNat < 2 ^ w.count
  closed_aligned : w.isOpen = false → w.count = 0

/-- Rule R44's invariant, and a closed reader holds nothing (rules R55, R156 and R251). -/
structure Reader.Inv (r : Reader) : Prop where
  count_le : r.count ≤ 8
  closed_empty : r.isOpen = false → r = Reader.closed

/-- The codes `DECODE` raises from inside a phase (60_exceptions.md rule R261). -/
def FaultCode.ofDecodePhase : FaultCode → Bool
  | .corruptStream | .trieOverflow => true
  | .none | .illegalCmd | .badOperand | .notOpen | .alreadyOpen | .streamExhausted | .lengthTooLarge | .cmdWhileBusy | .pbufRange =>
    false

/-- The fault record agrees with `STATUS.FAULT` (rules R54 and R261): no record without a fault, a code that can be recorded with
one, and a phase exactly with the codes of a phase. -/
structure ErrRecord.Inv (fault : Bool) (e : ErrRecord) : Prop where
  clear_of_no_fault : fault = false → e = ErrRecord.clear
  code_of_fault : fault = true → e.code ≠ .none ∧ e.code ≠ .cmdWhileBusy
  phase_iff : e.phase ≠ .none ↔ e.code.ofDecodePhase = true

/-- `PBUF` is in canonical form and lists only indices below `PAYLOAD_CAP` (rule R62). -/
structure Memory.Inv (cap : Word) (m : Memory) : Prop where
  wf : m.wf = true
  bound : ∀ i, cap.toNat ≤ i → m.read i = none

/-- What holds between host actions. -/
structure State.Inv (s : State) : Prop where
  /-- Rule R77: no command is running. -/
  not_busy : s.busy = false
  /-- Rule R65: no input bytes wait for a later `ROPEN`. -/
  none_offered : s.offered = []
  err : s.err.Inv s.fault
  /-- Rule R5: `1 ≤ PAYLOAD_CAP`. -/
  cap_pos : 0 < s.payloadCap.toNat
  writer : s.writer.Inv
  reader : s.reader.Inv
  pbuf : s.pbuf.Inv s.payloadCap

/-! ## Runs (70_reset_and_hazards.md rule R309) -/

/-- What a run shows: the status and result registers, the two output streams and `PBUF`. -/
structure Observation where
  status : Word
  err : Word
  result : Word
  dcount : Word
  wstate : Word
  rstate : Word
  wout : List Byte
  dout : List Byte
  pbuf : Memory
  deriving DecidableEq, Repr

/-- The observation of a final state. -/
def State.observe (s : State) : Observation :=
  ⟨s.statusWord, s.err.toWord, s.result, s.dcount, s.writer.stateWord, s.reader.stateWord, s.writer.out, s.dout, s.pbuf⟩

/-- A safe run of `n` host actions from `s`: no action is refused, and no fault is recorded at the end. -/
def safeRun (n : Nat) (s : State) : Prop :=
  ∃ t, Sys2Proof.core.run n s = .next t ∧ t.fault = false

end Sys2Proof.Machine
end

