-- ==== Sys2Proof/Certificates/Slice0/Obligations.lean ====
section
/-! DEFINITION. What is to be proved of the HCC, from the numbered rules of the spec.

A host action reaches `step` as the head of `pending`; a command reaches `exec` once rule R95 has decoded and admitted it.  An
equation `exec i s = .next { s with … }` is also the command's frame: every field it does not name is unchanged, `PBUF` among
them. -/

open Sys2Proof Sys2Proof.Machine

/-! ## Encoding (30_encoding.md) -/

/-- Rules R91 to R93: encoding loses nothing of a command, whatever its operands. -/
def Obligations.EncodedCommandDecodesToItself : Prop :=
  ∀ i : Instr, decode (encode i) = .ok i

/-- Rule R97: every word is the word of exactly one command, or illegal. -/
def Obligations.EveryWordIsOneCommandOrIllegal : Prop :=
  ∀ c : Word,
    (∃ i, decode c = .ok i ∧ encode i = c ∧ ∀ j, encode j = c → j = i) ∨
    (∃ e, decode c = .error e ∧ ∀ j, encode j ≠ c)

/-- Rule R94: the legal words are those of the MATCH and MASK table, and any other word faults with `ILLEGAL_CMD`. -/
def Obligations.LegalWordsAreMatchAndMask : Prop :=
  ∀ c : Word,
    let legal : Prop :=
      c ∈ ([0x00000000#32, 0x00000001#32, 0x00000010#32, 0x00000014#32, 0x00000015#32, 0x00000016#32, 0x00000020#32,
        0x00000021#32, 0x00000022#32, 0x00000023#32, 0x00000024#32, 0x00000025#32, 0x00000030#32, 0x00000031#32] : List Word) ∨
      c &&& 0xFFFEFFFF#32 = 0x00000011#32 ∨ c &&& 0xFF00FFFF#32 = 0x00000012#32 ∨ c &&& 0x0000E0FF#32 = 0x00000013#32
    ((∃ i, decode c = .ok i) ↔ legal) ∧
    (¬ legal → ∀ s : State, s.fault = false →
      issue c s = .next { s with fault := true, err := ⟨.illegalCmd, c.extractLsb' 0 8, .none⟩ })

/-- Rule R100: the worked encodings. -/
def Obligations.WorkedEncodingsDecode : Prop :=
  decode 0x00000000#32 = .ok .nop ∧ decode 0x00000001#32 = .ok .srst ∧ decode 0x00000010#32 = .ok .wopen ∧
  decode 0x00000011#32 = .ok (.wbit false) ∧ decode 0x00010011#32 = .ok (.wbit true) ∧
  decode 0x00410012#32 = .ok (.wbyte 0x41#8) ∧ decode 0x00FF0012#32 = .ok (.wbyte 0xFF#8) ∧
  decode 0x00050313#32 = .ok (.wchar 0x0005#16 3#5) ∧ decode 0x00410813#32 = .ok (.wchar 0x0041#16 8#5) ∧
  decode 0xFFFF1013#32 = .ok (.wchar 0xFFFF#16 16#5) ∧ decode 0x00010013#32 = .ok (.wchar 0x0001#16 0#5) ∧
  decode 0x00000014#32 = .ok .wint ∧ decode 0x00000015#32 = .ok .wflush ∧ decode 0x00000016#32 = .ok .wclose ∧
  decode 0x00000020#32 = .ok .ropen ∧ decode 0x00000021#32 = .ok .rbit ∧ decode 0x00000022#32 = .ok .rbyte ∧
  decode 0x00000023#32 = .ok .rint ∧ decode 0x00000024#32 = .ok .ravail ∧ decode 0x00000025#32 = .ok .rclose ∧
  decode 0x00000030#32 = .ok .encode ∧ decode 0x00000031#32 = .ok .decode ∧
  decode 0x00020011#32 = .error (.mustBeZero 0x11#8) ∧ decode 0x00002010#32 = .error (.mustBeZero 0x10#8) ∧
  decode 0x00000040#32 = .error (.unassignedOpcode 0x40#8)

/-! ## Steps and the register port (10_state.md, 20_memory.md) -/

/-- Rules R23, R77 and R95: a step whose action writes a decoded, admitted command word to `CMD` runs exactly that command, on the
state without the action, with the delivered bytes on offer; afterwards `BUSY` is 0 and nothing is on offer (the model's own
`pending` and `offered`: notes/assumptions/1.md and 2.md). -/
def Obligations.StepRunsTheDecodedCommand : Prop :=
  ∀ (s : State) (c : Word) (stream : List Byte) (rest : List HostAction) (i : Instr),
    s.busy = false → s.pending = .write 32 0x00 c stream :: rest → decode c = .ok i →
    (s.fault = false ∨ i = .nop ∨ i = .wclose ∨ i = .rclose ∨ i = .srst) →
    ∃ t, exec i { s with pending := rest, busy := true, offered := stream } = .next t ∧
      step s = .next { t with busy := false, offered := [] }

/-- Rules R95 and R263: while a fault is recorded, a step ignores every command word but those of `NOP`, `WCLOSE`, `RCLOSE` and
`SRST`, legal or not, and records nothing new (R262).  That the action itself is used up is the model's
(notes/assumptions/1.md). -/
def Obligations.FaultGateIgnoresCommands : Prop :=
  ∀ (s : State) (c : Word) (stream : List Byte) (rest : List HostAction),
    s.busy = false → s.fault = true → s.pending = .write 32 0x00 c stream :: rest →
    c ≠ 0x00000000#32 → c ≠ 0x00000016#32 → c ≠ 0x00000025#32 → c ≠ 0x00000001#32 →
    step s = .next { s with pending := rest, offered := [] }

/-- Rule R291, in the model's form (notes/assumptions/1.md): with no host action to come, the block waits. -/
def Obligations.BlockWaitsForTheHost : Prop :=
  ∀ s : State, s.pending = [] → step s = .next s

/-- Rule R61: an access that is not 32 bits wide, not at a multiple of 4 or above 0x3C has no step; every other access, made while
no command runs, has one. -/
def Obligations.OnlyAlignedWordAccessesHaveAStep : Prop :=
  ∀ (s : State) (width offset : Nat) (a : HostAction) (rest : List HostAction),
    s.busy = false → s.pending = a :: rest →
    (a = .read width offset ∨ ∃ d stream, a = .write width offset d stream) →
    (¬ (width = 32 ∧ offset % 4 = 0 ∧ offset ≤ 0x3C) → step s = .refused (.illFormedAccess width offset)) ∧
    (width = 32 ∧ offset % 4 = 0 ∧ offset ≤ 0x3C → ∃ t, step s = .next t)

/-- Rule R300: while `BUSY = 1` the host may read `STATUS` and nothing else; any other access has no step. -/
def Obligations.WhileBusyOnlyStatusIsRead : Prop :=
  ∀ (s : State) (offset : Nat) (rest : List HostAction),
    s.busy = true → offset % 4 = 0 → offset ≤ 0x3C →
    (s.pending = .read 32 offset :: rest →
      (offset = 0x04 → step s = .next { s with pending := rest, hostReads := s.hostReads ++ [s.statusWord] }) ∧
      (offset ≠ 0x04 → step s = .refused (.accessWhileBusy offset))) ∧
    (∀ d stream, s.pending = .write 32 offset d stream :: rest → step s = .refused (.accessWhileBusy offset))

/-- Rules R22 and R74: a read of any word but `PDATA` returns that register's value and changes nothing else (the log
of returned words, `hostReads`, is the model's: notes/assumptions/3.md). -/
def Obligations.RegisterReadsHaveNoSideEffect : Prop :=
  ∀ (s : State) (offset : Nat) (v : Word) (rest : List HostAction),
    s.busy = false → s.pending = .read 32 offset :: rest →
    (offset, v) ∈ [(0x00, 0#32), (0x04, s.statusWord), (0x08, s.err.toWord), (0x0C, s.arg), (0x10, s.result),
      (0x14, s.writer.stateWord), (0x18, s.reader.stateWord), (0x1C, s.dcount), (0x20, s.paddr), (0x28, 0x48434331#32),
      (0x2C, s.payloadCap), (0x30, 0#32), (0x34, 0#32), (0x38, 0#32), (0x3C, 0#32)] →
    step s = .next { s with pending := rest, hostReads := s.hostReads ++ [v] }

/-- Rule R38: a write to a read-only or reserved word is ignored, with no fault, and a reserved word reads 0. -/
def Obligations.ReadOnlyAndReservedWritesAreIgnored : Prop :=
  ∀ (s : State) (offset : Nat) (rest : List HostAction), s.busy = false →
    (∀ d stream, s.pending = .write 32 offset d stream :: rest →
      offset ∈ [0x30, 0x34, 0x38, 0x3C, 0x04, 0x08, 0x10, 0x14, 0x18, 0x1C, 0x28, 0x2C] →
      step s = .next { s with pending := rest }) ∧
    (s.pending = .read 32 offset :: rest → offset ∈ [0x30, 0x34, 0x38, 0x3C] →
      step s = .next { s with pending := rest, hostReads := s.hostReads ++ [0x00000000#32] })

/-- Rules R29 and R36: a host write to `ARG` or `PADDR` sets all 32 bits, and nothing else, whatever the host does next; a read
returns what the register holds. -/
def Obligations.ArgAndPaddrHoldWhatIsWritten : Prop :=
  ∀ (s : State) (rest : List HostAction), s.busy = false →
    (∀ d stream, s.pending = .write 32 0x0C d stream :: rest → step s = .next { s with arg := d, pending := rest }) ∧
    (∀ d stream, s.pending = .write 32 0x20 d stream :: rest → step s = .next { s with paddr := d, pending := rest }) ∧
    (s.pending = .read 32 0x0C :: rest →
      step s = .next { s with pending := rest, hostReads := s.hostReads ++ [s.arg] }) ∧
    (s.pending = .read 32 0x20 :: rest →
      step s = .next { s with pending := rest, hostReads := s.hostReads ++ [s.paddr] })

/-- Rule R63: a `PDATA` access moves one byte and advances `PADDR`, or faults `PBUF_RANGE` and moves nothing, whatever
`STATUS.FAULT`.  A byte nothing has written reads as some byte `x` (rule R62; the draw counter is the model's:
notes/assumptions/5.md). -/
def Obligations.PdataMovesOneByte : Prop :=
  ∀ (s : State) (rest : List HostAction), s.busy = false →
    (∀ d stream, s.pending = .write 32 0x24 d stream :: rest →
      (s.paddr.toNat < s.payloadCap.toNat →
        ∃ m p, step s = .next { s with pending := rest, pbuf := m, paddr := p } ∧ p.toNat = s.paddr.toNat + 1 ∧
          m.read s.paddr.toNat = some (d.extractLsb' 0 8) ∧ ∀ j, j ≠ s.paddr.toNat → m.read j = s.pbuf.read j) ∧
      (s.payloadCap.toNat ≤ s.paddr.toNat →
        step s = .next (if s.fault then { s with pending := rest }
          else { s with pending := rest, fault := true, err := ⟨.pbufRange, 0xFF#8, .none⟩ }))) ∧
    (s.pending = .read 32 0x24 :: rest →
      (s.paddr.toNat < s.payloadCap.toNat →
        ∃ x p u, p.toNat = s.paddr.toNat + 1 ∧
          step s = .next { s with
            pending := rest, paddr := p, undefDraws := u, hostReads := s.hostReads ++ [x.setWidth 32] } ∧
          ∀ y, s.pbuf.read s.paddr.toNat = some y → x = y ∧ u = s.undefDraws) ∧
      (s.payloadCap.toNat ≤ s.paddr.toNat →
        step s = .next (if s.fault then { s with pending := rest, hostReads := s.hostReads ++ [0x00000000#32] }
          else { s with
            pending := rest, hostReads := s.hostReads ++ [0x00000000#32], fault := true, err := ⟨.pbufRange, 0xFF#8, .none⟩ })))

/-! ## The status registers (10_state.md) -/

/-- Rules R24 and R27: the bits of `STATUS`. -/
def Obligations.StatusShowsItsFourFlags : Prop :=
  ∀ (s : State) (k : Nat), k < 32 →
    s.statusWord.getLsbD k =
      (if k = 0 then s.busy else if k = 1 then s.fault else if k = 2 then s.writer.isOpen
        else if k = 3 then s.reader.isOpen else false)

/-- Rules R28 and R261: the fields of `ERR`, and the numbers of the codes and phases. -/
def Obligations.ErrShowsCodeOpcodeAndPhase : Prop :=
  ∀ e : ErrRecord,
    (e.toWord.extractLsb' 0 8).toNat = (match e.code with
      | .none => 0x00 | .illegalCmd => 0x01 | .badOperand => 0x02 | .notOpen => 0x03 | .alreadyOpen => 0x04
      | .streamExhausted => 0x05 | .corruptStream => 0x06 | .trieOverflow => 0x07 | .lengthTooLarge => 0x08
      | .cmdWhileBusy => 0x09 | .pbufRange => 0x0A) ∧
    e.toWord.extractLsb' 8 8 = e.opc ∧
    (e.toWord.extractLsb' 16 4).toNat = (match e.phase with | .none => 0 | .trie => 1 | .length => 2 | .symbols => 3) ∧
    e.toWord.extractLsb' 20 12 = 0#12

/-- Rules R33 and R34: the fields of `WSTATE` and `RSTATE`, for the counts rules R40 and R44 allow. -/
def Obligations.StateWordsShowBufferAndCount : Prop :=
  (∀ w : Writer, w.count ≤ 7 →
    w.stateWord.extractLsb' 0 8 = w.buf ∧ (w.stateWord.extractLsb' 8 3).toNat = w.count ∧ w.stateWord.extractLsb' 11 21 = 0#21) ∧
  (∀ r : Reader, r.count ≤ 8 →
    r.stateWord.extractLsb' 0 8 = r.buf ∧ (r.stateWord.extractLsb' 8 4).toNat = r.count ∧ r.stateWord.extractLsb' 12 20 = 0#20)

/-! ## Reset and control (10_state.md, 45_control.md, 70_reset_and_hazards.md) -/

/-- Rule R55: the reset value of every piece of state, for every payload capacity; `State.reset`'s is one in 1..2^32 − 1. -/
def Obligations.ResetValues : Prop :=
  (∀ cap : Word, let s := State.resetWith cap
    s.statusWord = 0#32 ∧ s.err.toWord = 0#32 ∧ s.arg = 0#32 ∧ s.result = 0#32 ∧ s.writer.stateWord = 0#32 ∧
    s.writer.isOpen = false ∧ s.reader.stateWord = 0#32 ∧ s.reader.isOpen = false ∧ s.dcount = 0#32 ∧ s.paddr = 0#32 ∧
    readValue s .id = 0x48434331#32 ∧ readValue s .pcap = cap ∧ (∀ i, s.pbuf.read i = none) ∧ s.writer.out = [] ∧
    s.reader.rin = [] ∧ s.dout = [] ∧ s.busy = false) ∧
  ∃ cap : Word, State.reset = State.resetWith cap ∧ 1 ≤ cap.toNat ∧ cap.toNat ≤ 2 ^ 32 - 1

/-- Rule R250: `NOP` changes nothing, whatever the state, a recorded fault included; its word is 0, and a word with `OP` = 0 and any
other bit set is illegal. -/
def Obligations.NopChangesNothing : Prop :=
  (∀ s : State, exec .nop s = .next s ∧ issue 0x00000000#32 s = .next s) ∧ decode 0x00000000#32 = .ok .nop ∧
  ∀ c : Word, c.extractLsb' 0 8 = 0#8 → c ≠ 0#32 → ∃ e, decode c = .error e

/-- Rule R251: `SRST`, whose word is 1, gives every item its reset value except `PBUF`, which it keeps, whatever the state, a recorded
fault included, and without flushing the writer.  (The working storage is unspecified afterwards: notes/assumptions/6.md.) -/
def Obligations.SrstResetsAllButPbuf : Prop :=
  ∀ s : State, ∃ t, exec .srst s = .next t ∧ issue 0x00000001#32 s = .next t ∧
    t.statusWord = 0x00000000#32 ∧ t.busy = false ∧ t.fault = false ∧ t.err = ⟨.none, 0#8, .none⟩ ∧ t.arg = 0#32 ∧
    t.result = 0#32 ∧ t.dcount = 0#32 ∧ t.paddr = 0#32 ∧
    t.writer = { buf := 0#8, count := 0, isOpen := false, out := [] } ∧
    t.reader = { buf := 0#8, count := 0, isOpen := false, rin := [] } ∧
    t.dout = [] ∧ t.pbuf = s.pbuf ∧ t.payloadCap = s.payloadCap

/-- Rule R292: `SRST` and hardware reset differ only in `PBUF` (and in the model's counter of unwritten readings,
notes/assumptions/5.md): `SRST` keeps its bytes and reset makes them `undef`. -/
def Obligations.SrstAndResetDifferOnlyInPbuf : Prop :=
  ∀ (s : State) (stream : List Byte) (rest : List HostAction), s.busy = false →
    s.pending = .write 32 0x00 0x00000001#32 stream :: rest →
    ∃ (t u : State) (d : Nat), step s = .next t ∧ step { s with pending := .hardReset :: rest } = .next u ∧
      t.pbuf = s.pbuf ∧ (∀ i, u.pbuf.read i = none) ∧ u = { t with pbuf := u.pbuf, undefDraws := d }

/-! ## Faults (60_exceptions.md) -/

/-- Rule R262: `raise` records the first fault and no later one. -/
def Obligations.RaiseRecordsOnlyTheFirstFault : Prop :=
  ∀ (s : State) (code : FaultCode) (opc : Byte) (phase : Phase),
    (s.fault = false → s.raise code opc phase = { s with fault := true, err := ⟨code, opc, phase⟩ }) ∧
    (s.fault = true → s.raise code opc phase = s)

/-- Rules R26, R54 and R267: once a fault is recorded, every step keeps it and `ERR`, but for `SRST` and hardware reset. -/
def Obligations.RecordedFaultIsSticky : Prop :=
  ∀ s t : State, step s = .next t → s.fault = true →
    (t.fault = true ∧ t.err = s.err) ∨
    (∃ stream rest, s.pending = .write 32 0x00 0x00000001#32 stream :: rest) ∨ (∃ rest, s.pending = .hardReset :: rest)

/-- Rules R42, R46, R121 and R151: each command checks its stream first.  On a closed stream the writer's and the reader's commands
fault `NOT_OPEN`, whatever their operands (R265); on an open one `WOPEN` and `ROPEN` fault `ALREADY_OPEN`.  Nothing else
changes (R264). -/
def Obligations.StreamStateIsCheckedFirst : Prop :=
  ∀ (s : State) (i : Instr), s.fault = false →
    (s.writer.isOpen = false →
      (i = .wint ∨ i = .wflush ∨ i = .encode ∨ (∃ b, i = .wbit b) ∨ (∃ v, i = .wbyte v) ∨ (∃ V W, i = .wchar V W)) →
      exec i s = .next { s with fault := true, err := ⟨.notOpen, i.opcode, .none⟩ }) ∧
    (s.reader.isOpen = false → (i = .rbit ∨ i = .rbyte ∨ i = .rint ∨ i = .ravail ∨ i = .decode) →
      exec i s = .next { s with fault := true, err := ⟨.notOpen, i.opcode, .none⟩ }) ∧
    (s.writer.isOpen = true → i = .wopen → exec i s = .next { s with fault := true, err := ⟨.alreadyOpen, 0x10#8, .none⟩ }) ∧
    (s.reader.isOpen = true → i = .ropen → exec i s = .next { s with fault := true, err := ⟨.alreadyOpen, 0x20#8, .none⟩ })

/-- Rule R308: every command completes, from every state; none of them stops the block. -/
def Obligations.EveryCommandCompletes : Prop :=
  ∀ (i : Instr) (s : State), ∃ t, exec i s = .next t

/-- Rule R30, with `SRST`, which rule R251 lets write `RESULT` too: `RESULT` changes only by `RBIT`, `RBYTE`, `RINT`, `RAVAIL`,
`ENCODE` and `DECODE`, and only when they complete without a fault. -/
def Obligations.ResultChangesOnlyByReadsAndCodec : Prop :=
  ∀ (i : Instr) (s t : State), exec i s = .next t → t.result ≠ s.result →
    i = .srst ∨
    (i ∈ [Instr.rbit, .rbyte, .rint, .ravail, .encode, .decode] ∧ t.fault = s.fault ∧ t.err = s.err)

/-- Rules R62 and R29, with `SRST` for `ARG` and `PADDR` (R251): no command writes `PBUF`, and none writes `PCAP`, `ARG` or
`PADDR`. -/
def Obligations.NoCommandWritesPbufOrOperands : Prop :=
  ∀ (i : Instr) (s t : State), exec i s = .next t →
    (∀ a, t.pbuf.read a = s.pbuf.read a) ∧ t.payloadCap = s.payloadCap ∧ (i ≠ .srst → t.arg = s.arg ∧ t.paddr = s.paddr)

/-! ## The bit writer (41_bitwriter.md) -/

/-- Rule R121: `WOPEN` starts a new, empty stream. -/
def Obligations.WopenStartsAnEmptyStream : Prop :=
  ∀ s : State, s.writer.isOpen = false →
    exec .wopen s = .next { s with writer := { buf := 0#8, count := 0, isOpen := true, out := [] } }

/-- Rules R120 and R122: `WBIT` appends one bit, and emits the byte its bit completes. -/
def Obligations.WbitAppendsOneBit : Prop :=
  ∀ (s : State) (b : Bool), s.writer.isOpen = true → s.writer.count ≤ 7 →
    ∃ x : Byte, (∀ k, k < 8 → x.getLsbD k = if k = 0 then b else s.writer.buf.getLsbD (k - 1)) ∧
      exec (.wbit b) s = .next { s with writer :=
        if s.writer.count = 7 then { s.writer with buf := 0#8, count := 0, out := s.writer.out ++ [x] }
        else { s.writer with buf := x, count := s.writer.count + 1 } }

/-- Rule R123: `WBYTE` emits one byte, its first `k` bits from the buffer and the rest from the value, and keeps the value's low `k`
bits; aligned (`k = 0`), it emits the value itself. -/
def Obligations.WbyteEmitsOneByte : Prop :=
  ∀ (s : State) (v : Byte), s.writer.isOpen = true → s.writer.count ≤ 7 →
    exec (.wbyte v) s = .next { s with writer := { s.writer with
      out := s.writer.out ++ [(s.writer.buf <<< (8 - s.writer.count)) ||| (v >>> s.writer.count)]
      buf := v &&& BitVec.ofNat 8 (2 ^ s.writer.count - 1) } }

/-- Rules R124 and R265: on an open writer, `WCHAR` with a width in 1..16 and a value below `2^W` appends the `W` low bits of `V`,
the highest first; any other operands fault `BAD_OPERAND` and write nothing. -/
def Obligations.WcharAppendsItsWidth : Prop :=
  ∀ (s : State) (V : BitVec 16) (W : BitVec 5), s.writer.isOpen = true → s.writer.count ≤ 7 →
    (1 ≤ W.toNat ∧ W.toNat ≤ 16 ∧ V.toNat < 2 ^ W.toNat →
      ∃ w, exec (.wchar V W) s = .next { s with writer := w } ∧ w.isOpen = true ∧ s.writer.out <+: w.out ∧
        w.count = (s.writer.count + W.toNat) % 8 ∧
        w.written = s.writer.written ++ (List.range W.toNat).map fun k => V.getLsbD (W.toNat - 1 - k)) ∧
    (¬ (1 ≤ W.toNat ∧ W.toNat ≤ 16 ∧ V.toNat < 2 ^ W.toNat) → s.fault = false →
      exec (.wchar V W) s = .next { s with fault := true, err := ⟨.badOperand, 0x13#8, .none⟩ })

/-- Rules R125 and R68: `WINT` is four `WBYTE`s, the highest byte of `ARG` first; it emits four bytes and keeps the alignment. -/
def Obligations.WintIsFourBytesBigEndian : Prop :=
  ∀ s : State, s.writer.isOpen = true → s.writer.count ≤ 7 →
    ∃ s1 s2 s3 t : State,
      exec (.wbyte (s.arg.extractLsb' 24 8)) s = .next s1 ∧ exec (.wbyte (s.arg.extractLsb' 16 8)) s1 = .next s2 ∧
      exec (.wbyte (s.arg.extractLsb' 8 8)) s2 = .next s3 ∧ exec (.wbyte (s.arg.extractLsb' 0 8)) s3 = .next t ∧
      exec .wint s = .next t ∧ t = { s with writer := t.writer } ∧ t.writer.count = s.writer.count ∧
      t.writer.out.length = s.writer.out.length + 4 ∧
      (s.writer.count = 0 → t.writer.out = s.writer.out ++
        [s.arg.extractLsb' 24 8, s.arg.extractLsb' 16 8, s.arg.extractLsb' 8 8, s.arg.extractLsb' 0 8])

/-- Rules R68 and R124: on an open writer `WBYTE v` is `WCHAR v, 8` and is eight `WBIT`s, bit 7 first; `WCHAR b, 1` is
`WBIT b`. -/
def Obligations.WriteWidthsAgree : Prop :=
  ∀ (s : State), s.writer.isOpen = true →
    (∀ v : Byte, exec (.wbyte v) s = exec (.wchar (v.setWidth 16) 8#5) s) ∧
    (∀ b : Bool, exec (.wbit b) s = exec (.wchar ((BitVec.ofBool b).setWidth 16) 1#5) s) ∧
    (∀ v : Byte, ∃ s1 s2 s3 s4 s5 s6 s7 t : State,
      exec (.wbit (v.getLsbD 7)) s = .next s1 ∧ exec (.wbit (v.getLsbD 6)) s1 = .next s2 ∧
      exec (.wbit (v.getLsbD 5)) s2 = .next s3 ∧ exec (.wbit (v.getLsbD 4)) s3 = .next s4 ∧
      exec (.wbit (v.getLsbD 3)) s4 = .next s5 ∧ exec (.wbit (v.getLsbD 2)) s5 = .next s6 ∧
      exec (.wbit (v.getLsbD 1)) s6 = .next s7 ∧ exec (.wbit (v.getLsbD 0)) s7 = .next t ∧ exec (.wbyte v) s = .next t)

/-- Rules R126 and R129: `WFLUSH` on an aligned writer changes nothing; otherwise it pads the partial byte with zero bits, as the
missing number of `WriteBit(0)` would, and emits it. -/
def Obligations.WflushPadsThePartialByte : Prop :=
  ∀ s : State, s.writer.isOpen = true → s.writer.count ≤ 7 →
    (s.writer.count = 0 → exec .wflush s = .next s) ∧
    (0 < s.writer.count →
      exec .wflush s = .next { s with writer := { s.writer with
        buf := 0#8, count := 0, out := s.writer.out ++ [s.writer.buf <<< (8 - s.writer.count)] } } ∧
      exec .wflush s = .next { s with writer := s.writer.writeAll (List.replicate (8 - s.writer.count) false) })

/-- Rule R127: `WCLOSE` flushes and releases an open writer, keeping `WOUT`, whatever `STATUS.FAULT`; on a closed one it does
nothing. -/
def Obligations.WcloseFlushesAndReleases : Prop :=
  ∀ s : State,
    (s.writer.isOpen = false → exec .wclose s = .next s) ∧
    (s.writer.isOpen = true → s.writer.count ≤ 7 →
      ∃ w, exec .wclose s = .next { s with writer := w } ∧ w.isOpen = false ∧ w.count = 0 ∧
        w.written = s.writer.written ++ List.replicate ((8 - s.writer.count) % 8) false)

/-- Rules R131 and R41: while the writer stays open its bit string only grows: a command appends bits to it, or changes nothing of
the writer; no emitted byte is taken back, and the string has 8 bits for each byte of `WOUT` and `W.count` more. -/
def Obligations.WriterOnlyAppends : Prop :=
  ∀ (i : Instr) (s t : State), s.writer.Inv → i ≠ .srst → s.writer.isOpen = true → exec i s = .next t →
    s.writer.out <+: t.writer.out ∧ s.writer.written <+: t.writer.written ∧
    t.writer.written.length = 8 * t.writer.out.length + t.writer.count ∧ t.writer.Inv ∧
    (t.writer = s.writer ∨ i ∈ [Instr.wint, .wflush, .wclose, .encode] ∨ (∃ b, i = .wbit b) ∨ (∃ v, i = .wbyte v) ∨
      ∃ V W, i = .wchar V W)

/-! ## The bit reader (42_bitreader.md) -/

/-- Rule R151: `ROPEN` attaches the bytes the host delivers with it and takes none of them. -/
def Obligations.RopenAttachesTheDeliveredBytes : Prop :=
  ∀ s : State, s.reader.isOpen = false →
    exec .ropen s = .next { s with reader := { buf := 0#8, count := 0, isOpen := true, rin := s.offered } }

/-- Rules R152, R153, R154, R157 and R264: with at least `n` unconsumed bits, `RBIT`, `RBYTE` and `RINT` consume the next `n` = 1, 8
and 32 of them and put them in `RESULT`, the first bit highest, zero-extended. -/
def Obligations.ReadCommandsReturnTheNextBits : Prop :=
  ∀ (s : State) (i : Instr) (n : Nat) (bits rest : List Bool),
    (i, n) ∈ [(Instr.rbit, 1), (.rbyte, 8), (.rint, 32)] → s.reader.isOpen = true → s.reader.unread = bits ++ rest →
    bits.length = n →
    ∃ v r, exec i s = .next { s with reader := r, result := v } ∧ r.unread = rest ∧ r.isOpen = true ∧ v.toNat < 2 ^ n ∧
      ∀ k, (h : k < bits.length) → v.getLsbD (n - 1 - k) = bits[k]

/-- Rules R152 to R154, R158 and R264: with fewer than `n` unconsumed bits, the same commands consume them all and fault
`STREAM_EXHAUSTED`; `RESULT` keeps its value. -/
def Obligations.ReadPastTheEndFaults : Prop :=
  ∀ (s : State) (i : Instr) (n : Nat),
    (i, n) ∈ [(Instr.rbit, 1), (.rbyte, 8), (.rint, 32)] → s.reader.isOpen = true → s.reader.unread.length < n →
    s.fault = false →
    ∃ r, exec i s = .next { s with reader := r, fault := true, err := ⟨.streamExhausted, i.opcode, .none⟩ } ∧
      r.count = 0 ∧ r.rin = [] ∧ r.isOpen = true ∧ (i = .rbit → r = s.reader)

/-- Rule R159: `RINT` is four `RBYTE`s: its value is composed of theirs, the first highest, and it leaves the reader where the fourth
does. -/
def Obligations.RintIsFourRbytesBigEndian : Prop :=
  ∀ s : State, s.reader.isOpen = true → 32 ≤ s.reader.unread.length →
    ∃ s0 s1 s2 s3 : State,
      exec .rbyte s = .next s0 ∧ exec .rbyte s0 = .next s1 ∧ exec .rbyte s1 = .next s2 ∧ exec .rbyte s2 = .next s3 ∧
      exec .rint s = .next { s3 with
        result := (s0.result <<< 24) ||| (s1.result <<< 16) ||| (s2.result <<< 8) ||| s3.result }

/-- Rules R155, R160 and R161: `RAVAIL` tells whether an unconsumed bit is left, pad bits included, and consumes nothing. -/
def Obligations.RavailTellsWhetherABitIsLeft : Prop :=
  ∀ s : State, s.reader.isOpen = true →
    exec .ravail s = .next { s with result := if s.reader.unread = [] then 0#32 else 1#32 }

/-- Rule R156: `RCLOSE` drops whatever is unread, whatever `STATUS.FAULT`; on a closed reader it does nothing. -/
def Obligations.RcloseDropsTheInput : Prop :=
  ∀ s : State,
    (s.reader.isOpen = false → exec .rclose s = .next s) ∧
    (s.reader.isOpen = true →
      exec .rclose s = .next { s with reader := { buf := 0#8, count := 0, isOpen := false, rin := [] } })

/-- Rules R162, R44 and R45: no command but `ROPEN`, `RCLOSE` and `SRST` takes the input out of order: it takes a run of bytes from the
front of `RIN` and consumes a run of bits from the front of the unconsumed ones, 8 for each byte taken less the change of
`R.count`.  The refill is lazy: a byte is taken only for a bit of it that is consumed. -/
def Obligations.ReaderConsumesAPrefix : Prop :=
  ∀ (i : Instr) (s t : State), i ≠ .ropen → i ≠ .rclose → i ≠ .srst → s.reader.count ≤ 8 → exec i s = .next t →
    t.reader.isOpen = s.reader.isOpen ∧ t.reader.count ≤ 8 ∧
    ∃ (taken : List Byte) (consumed : List Bool), s.reader.rin = taken ++ t.reader.rin ∧
      s.reader.unread = consumed ++ t.reader.unread ∧
      consumed.length + t.reader.count = 8 * taken.length + s.reader.count ∧ (taken ≠ [] → t.reader.count ≤ 7)

/-! ## ENCODE (43_compress.md) -/

/-- Rules R180 to R183, R185 to R187 and R189: with the writer open and `ARG ≤ PAYLOAD_CAP`, `ENCODE` builds its trie from the payload by
the leaves of R182 and the merge passes of R183 (`MergesTo.pass` is one pass), and appends that trie serialized, the 32-bit
length, and for each payload byte in order its code in that trie, the path to its leaf; `RESULT` is the leaf count, 2 to 256.
The payload is `PBUF[0..ARG-1]`, whose unwritten bytes are free values (R62). -/
def Obligations.EncodeWritesTrieLengthAndCodes : Prop :=
  ∀ s : State, s.writer.isOpen = true → s.writer.count ≤ 7 → s.arg.toNat ≤ s.payloadCap.toNat →
    let payload := s.payload s.arg.toNat
    let root := buildTrie payload
    let code := codeOf (deriveCodes root)
    MergesTo (leafQueue payload).length (leafQueue payload) root ∧ 2 ≤ root.leaves ∧ root.leaves ≤ 256 ∧
    (∀ x ∈ payload, (x, code x) ∈ root.walk []) ∧
    ∃ (w : Writer) (u : Nat),
      exec .encode s = .next { s with
        writer := w, result := BitVec.ofNat 32 root.leaves, undefDraws := u, workDraws := s.workDraws + 1 } ∧
      w.isOpen = true ∧ s.writer.out <+: w.out ∧
      w.written = s.writer.written ++ root.serialize ++ bitsMsb s.arg 32 ++ payload.flatMap code

/-- Rules R180, R265 and R264: `ENCODE` of more than `PAYLOAD_CAP` bytes on an open writer faults `LENGTH_TOO_LARGE` and changes nothing
else. -/
def Obligations.EncodeRefusesTooLongAPayload : Prop :=
  ∀ s : State, s.writer.isOpen = true → s.payloadCap.toNat < s.arg.toNat → s.fault = false →
    exec .encode s = .next { s with fault := true, err := ⟨.lengthTooLarge, 0x30#8, .none⟩ }

/-- Rule R183: `ExtractMin` removes one entry, and no entry's key is less than its key.  One pass of the merge loop extracts `a`, then
`b` of the others, and goes on with `NTOP` one higher and the internal node of `a` (left) and `b` (right) put back; with one
entry left the loop returns it. -/
def Obligations.ExtractMinTakesTheLeastKey : Prop :=
  (∀ (x : QueueEntry) (rest : List QueueEntry),
    ((extractMin x rest).1 :: (extractMin x rest).2).Perm (x :: rest) ∧
    ∀ y ∈ x :: rest, ¬ (y.weight < (extractMin x rest).1.weight ∨
      (y.weight = (extractMin x rest).1.weight ∧ y.seq < (extractMin x rest).1.seq))) ∧
  (∀ (fuel ntop : Nat) (x : QueueEntry) (rest : List QueueEntry), rest ≠ [] →
    ∃ (a b : QueueEntry) (remaining : List QueueEntry), (a :: b :: remaining).Perm (x :: rest) ∧
      (∀ z ∈ b :: remaining, ¬ z.Precedes a) ∧ (∀ z ∈ remaining, ¬ z.Precedes b) ∧
      mergeLoop (fuel + 1) ntop x rest =
        mergeLoop fuel (ntop + 1) ⟨a.weight + b.weight, ntop, .node a.trie b.trie⟩ remaining) ∧
  ∀ (fuel ntop : Nat) (x : QueueEntry), mergeLoop fuel ntop x [] = x.trie

/-- Rules R182 and R188: the encoder's trie has one leaf for each byte value that occurs, at least 2 and at most 256 in all, and
`2·Lf − 1 ≤ 511` nodes; with fewer than two values the synthetic leaf is on the left, with code `0`. -/
def Obligations.EncoderTrieHasOneLeafPerValue : Prop :=
  (∀ payload : List Byte,
    (buildTrie payload).leaves = max 2 payload.dedup.length ∧ (buildTrie payload).leaves ≤ 256 ∧
    (buildTrie payload).size = 2 * (buildTrie payload).leaves - 1 ∧ (buildTrie payload).size ≤ 511 ∧
    ∀ v ∈ payload, ((deriveCodes (buildTrie payload)).map Prod.fst).count v = 1) ∧
  (∀ (u : Byte) (n : Nat),
    deriveCodes (buildTrie (List.replicate (n + 1) u)) = [(if u = 0#8 then 1#8 else 0#8, [false]), (u, [true])]) ∧
  deriveCodes (buildTrie []) = [(0#8, [false]), (1#8, [true])]

/-- Rule R190: no code is a prefix of another, in any trie. -/
def Obligations.CodesArePrefixFree : Prop :=
  ∀ (root : Trie) (a b : Byte) (p q : List Bool), a ≠ b → (deriveCodes root).lookup a = some p →
    (deriveCodes root).lookup b = some q → ¬ p <+: q

/-- Rule R191: every code of an encoder-built trie has length 1 to `Lf − 1`, at most 255. -/
def Obligations.CodeLengthsAreBounded : Prop :=
  ∀ (payload : List Byte) (v : Byte) (p : List Bool), (v, p) ∈ deriveCodes (buildTrie payload) →
    1 ≤ p.length ∧ p.length ≤ (buildTrie payload).leaves - 1 ∧ p.length ≤ 255

/-- Rule R192: the number of bits an `ENCODE` writes; `10·Lf − 1` of them are the trie's. -/
def Obligations.EncodeOutputSize : Prop :=
  ∀ s t : State, s.writer.isOpen = true → s.writer.count ≤ 7 → s.arg.toNat ≤ s.payloadCap.toNat →
    exec .encode s = .next t →
    let root := buildTrie (s.payload s.arg.toNat)
    root.serialize.length = 10 * root.leaves - 1 ∧
    t.writer.written.length = s.writer.written.length + (10 * root.leaves - 1) + 32 +
      ((s.payload s.arg.toNat).map fun x => (codeOf (deriveCodes root) x).length).sum

/-- Rule R194: two `ENCODE`s with equal `ARG`, equal written payload bytes and equal writers leave equal writers and results, whatever
else the two states hold. -/
def Obligations.EncodeIsDeterministic : Prop :=
  ∀ s s' t t' : State, s.arg = s'.arg → s.writer = s'.writer →
    s.arg.toNat ≤ s.payloadCap.toNat → s'.arg.toNat ≤ s'.payloadCap.toNat → s.writer.isOpen = true →
    (∀ i, i < s.arg.toNat → (s.pbuf.read i).isSome = true ∧ s.pbuf.read i = s'.pbuf.read i) →
    exec .encode s = .next t → exec .encode s' = .next t' → t.writer = t'.writer ∧ t.result = t'.result

/-! ## DECODE (44_decompress.md) -/

/-- Rule R231: reading a serialized trie that fits `NODE` gives back the trie and consumes exactly its bits. -/
def Obligations.TrieSerializationRoundTrip : Prop :=
  ∀ (t : Trie) (r : Reader) (rest : List Bool), t.size ≤ 511 → r.unread = t.serialize ++ rest →
    ∃ r', readTrie Config.nodeCap 0 r = .got t t.size r' ∧ r'.unread = rest ∧ r'.isOpen = r.isOpen

/-- Rules R220, R224 to R228: on an open reader holding any trie of at most 511 nodes, a length and that many codes of it, `DECODE`
completes: it emits the leaves' values, counts them and consumes exactly those bits.  The trie need not be one an encoder
writes: a root leaf has the empty code, and a value may have several leaves. -/
def Obligations.DecodeEmitsTheCodedLeaves : Prop :=
  ∀ (s : State) (root : Trie) (symbols : List (Byte × List Bool)) (rest : List Bool),
    s.reader.isOpen = true → root.size ≤ 511 → (∀ c ∈ symbols, c ∈ root.walk []) → symbols.length < 2 ^ 32 →
    s.reader.unread = root.serialize ++ bitsMsb (BitVec.ofNat 32 symbols.length) 32 ++ symbols.flatMap Prod.snd ++ rest →
    ∃ r, exec .decode s = .next { s with
        reader := r, dout := s.dout ++ symbols.map Prod.fst, dcount := BitVec.ofNat 32 symbols.length
        result := BitVec.ofNat 32 symbols.length, workDraws := s.workDraws + 1 } ∧
      r.unread = rest ∧ r.isOpen = true

/-- Rule R230, the headline.  There is a bit string `E B` for each payload `B`, the same whatever the writer's alignment, so that every
`ENCODE` of `B` appends exactly `E B`; and a `DECODE` whose unconsumed bits begin with `E B` completes without a fault, appends
exactly `B` to `DOUT`, sets `RESULT` to its length, and leaves exactly the bits that followed, in any state of any block. -/
def Obligations.DecodeInvertsEncode : Prop :=
  ∃ E : List Byte → List Bool,
    ∀ s : State, s.writer.isOpen = true → s.writer.count ≤ 7 → s.arg.toNat ≤ s.payloadCap.toNat →
      ∃ t : State, exec .encode s = .next t ∧ t.fault = s.fault ∧
        t.writer.written = s.writer.written ++ E (s.payload s.arg.toNat) ∧
        ∀ (d : State) (rest : List Bool), d.reader.isOpen = true → d.reader.unread = E (s.payload s.arg.toNat) ++ rest →
          ∃ u, exec .decode d = .next u ∧ u.fault = d.fault ∧ u.err = d.err ∧
            u.dout = d.dout ++ s.payload s.arg.toNat ∧ u.result = s.arg ∧ u.dcount = s.arg ∧ u.reader.unread = rest

/-- Rule R222 on the all-internal stream of T-D9 (95_test_vectors.md): after 511 flags of internal nodes in a row, `DECODE` faults
`TRIE_OVERFLOW` before it reads the next bit, which may be there or not.  Any other trie that needs a 512th node is a case of
`Obligations.DecodeFaultsWhereTheInputOrTheNodesEnd`. -/
def Obligations.TrieOverflowBeforeThe512thFlag : Prop :=
  ∀ (s : State) (rest : List Bool), s.reader.isOpen = true → s.fault = false →
    s.reader.unread = List.replicate 511 false ++ rest →
    ∃ r, exec .decode s = .next { s with
        reader := r, dcount := 0#32, workDraws := s.workDraws + 1, fault := true, err := ⟨.trieOverflow, 0x31#8, .trie⟩ } ∧
      r.unread = rest ∧ r.isOpen = true

/-- Rules R220 to R224, R226, R229 and R264: when a `DECODE` on an open reader faults, with which code and phase, and what it leaves.
* The unconsumed bits begin with the first 511 nodes, in pre-order, of a trie with more: `TRIE_OVERFLOW` in phase 1, and exactly
  those nodes' bits are consumed (the 512th node's flag, if it is there, is not).
* They end before a trie, or its first 511 nodes, is complete: `CORRUPT_STREAM` in phase 1.
* They end before the 32 bits of the length after a trie: `CORRUPT_STREAM` in phase 2.
* They end after fewer than `N` complete codes, inside the next (`part`, or with nothing of it): `CORRUPT_STREAM` in phase 3, and
  `DOUT` and `DCOUNT` have the symbols of the complete ones.

`RESULT` and every field not named keep their values. -/
def Obligations.DecodeFaultsWhereTheInputOrTheNodesEnd : Prop :=
  ∀ s : State, s.reader.isOpen = true → s.fault = false →
    let firstNodes (t : Trie) : List Bool := (t.preorder.take 511).flatMap nodeBits
    let stops (code : FaultCode) (phase : Phase) (symbols : List Byte) (left : List Bool) : Prop :=
      ∃ r, exec .decode s = .next { s with
          reader := r, dout := s.dout ++ symbols, dcount := BitVec.ofNat 32 symbols.length
          workDraws := s.workDraws + 1, fault := true, err := ⟨code, 0x31#8, phase⟩ } ∧
        r.unread = left ∧ r.isOpen = true
    (∀ (t : Trie) (rest : List Bool), 511 < t.size → s.reader.unread = firstNodes t ++ rest →
      stops .trieOverflow .trie [] rest) ∧
    (∀ (t : Trie) (missing : List Bool), missing ≠ [] → s.reader.unread ++ missing = firstNodes t →
      stops .corruptStream .trie [] []) ∧
    (∀ (root : Trie) (part : List Bool), root.size ≤ 511 → part.length < 32 → s.reader.unread = root.serialize ++ part →
      stops .corruptStream .length [] []) ∧
    (∀ (root : Trie) (n : Word) (symbols : List (Byte × List Bool)) (part : List Bool) (next : Byte × List Bool),
      root.size ≤ 511 → (∀ c ∈ symbols, c ∈ root.walk []) → symbols.length < n.toNat →
      next ∈ root.walk [] → part <+: next.2 → part ≠ next.2 →
      s.reader.unread = root.serialize ++ bitsMsb n 32 ++ symbols.flatMap Prod.snd ++ part →
      stops .corruptStream .symbols (symbols.map Prod.fst) [])

/-- Rules R229 and R226: what a `DECODE` that faults in a phase leaves: the reader open, `RESULT` as it was, in `DOUT` and `DCOUNT` exactly
the symbols emitted (none before phase 3), and after `CORRUPT_STREAM` no unconsumed bit. -/
def Obligations.DecodeFaultLeavesWhatWasReadAndEmitted : Prop :=
  ∀ s t : State, s.reader.isOpen = true → s.fault = false → exec .decode s = .next t → t.fault = true →
    t.err.opc = 0x31#8 ∧ (t.err.code = .corruptStream ∨ t.err.code = .trieOverflow ∧ t.err.phase = .trie) ∧
    t.err.phase ≠ .none ∧ t.reader.isOpen = true ∧ t.result = s.result ∧
    (t.err.code = .corruptStream → t.reader.count = 0 ∧ t.reader.rin = []) ∧
    ∃ symbols : List Byte, t.dout = s.dout ++ symbols ∧ t.dcount.toNat = symbols.length ∧
      (t.err.phase ≠ .symbols → symbols = [])

/-- Rule R232: `DECODE` reads no `PBUF` byte and nothing of the writer, and changes neither. -/
def Obligations.DecodeIgnoresPbufAndWriter : Prop :=
  ∀ (s t : State) (m : Memory) (w : Writer), exec .decode s = .next t →
    t.pbuf = s.pbuf ∧ t.writer = s.writer ∧
    exec .decode { s with pbuf := m, writer := w } = .next { t with pbuf := m, writer := w }

/-! ## Whole-machine rules -/

/-- Rule R53, in the model's form: what the working storage holds before a step never affects what the step does.  What it holds
between commands is the free value `Config.workingStorage` of the model's counter `workDraws` (DESIGN CHOICE,
notes/assumptions/6.md), and what the statement varies is that counter. -/
def Obligations.WorkingStorageNeverMatters : Prop :=
  ∀ (s t : State) (n : Nat), step s = .next t → ∃ m, step { s with workDraws := n } = .next { t with workDraws := m }

/-- Rules R40, R44, R54, R62 and R77: every step keeps the invariant of the state: no command is running and nothing is on offer,
`ERR` agrees with `STATUS.FAULT`, the buffers hold what their counts say, a closed stream holds nothing, and `PBUF` is in
canonical form below `PAYLOAD_CAP`. -/
def Obligations.StepKeepsStateInvariant : Prop :=
  ∀ s t : State, s.Inv → step s = .next t → t.Inv

/-- The invariant holds after reset. -/
def Obligations.ResetMeetsStateInvariant : Prop :=
  State.reset.Inv ∧ ∀ cap : Word, 0 < cap.toNat → (State.resetWith cap).Inv
end

