-- ==== Sys2Proof/Laws/Bits.lean ====
section
/-! SUPPORT. Laws of bit strings: `bitsMsb` and `byteBits`. -/

namespace Sys2Proof.Machine

@[simp] theorem bitsMsb_zero {w : Nat} (v : BitVec w) : bitsMsb v 0 = [] := rfl

theorem bitsMsb_succ {w : Nat} (v : BitVec w) (n : Nat) : bitsMsb v (n + 1) = v.getLsbD n :: bitsMsb v n := rfl

@[simp] theorem bitsMsb_length {w : Nat} (v : BitVec w) (n : Nat) : (bitsMsb v n).length = n := by
  induction n with
  | zero => rfl
  | succ n ih => simp [bitsMsb, ih]

theorem bitsMsb_getElem {w : Nat} (v : BitVec w) (n k : Nat) (h : k < (bitsMsb v n).length) :
    (bitsMsb v n)[k] = v.getLsbD (n - 1 - k) := by
  induction n generalizing k with
  | zero => simp at h
  | succ n ih =>
    cases k with
    | zero => simp [bitsMsb]
    | succ k =>
      simp only [bitsMsb, List.getElem_cons_succ]
      rw [ih]
      congr 1
      omega

/-- Bit strings of equal length are equal when their bits are. -/
theorem bitsMsb_congr {w w' : Nat} {v : BitVec w} {v' : BitVec w'} {n : Nat}
    (h : ∀ j < n, v.getLsbD j = v'.getLsbD j) : bitsMsb v n = bitsMsb v' n := by
  induction n with
  | zero => rfl
  | succ n ih => simp [bitsMsb, h n (by omega), ih fun j hj => h j (by omega)]

/-- A field splits at any bit: the high part first. -/
theorem bitsMsb_add {w : Nat} (v : BitVec w) (m n : Nat) :
    bitsMsb v (m + n) = bitsMsb (v >>> n) m ++ bitsMsb v n := by
  induction m with
  | zero => simp
  | succ m ih =>
    rw [Nat.succ_add]
    rw [bitsMsb_succ, ih, bitsMsb_succ, BitVec.getLsbD_ushiftRight, Nat.add_comm n m, List.cons_append]

/-- A shifted-in bit comes last. -/
theorem bitsMsb_shiftIn (v : Byte) (b : Bool) (n : Nat) (h : n < 8) :
    bitsMsb ((v <<< 1) ||| (BitVec.ofBool b).setWidth 8) (n + 1) = bitsMsb v n ++ [b] := by
  induction n with
  | zero => cases b <;> simp [bitsMsb]
  | succ n ih =>
    rw [bitsMsb_succ, ih (by omega), bitsMsb_succ v n, List.cons_append]
    congr 1
    simp only [BitVec.getLsbD_or, BitVec.getLsbD_shiftLeft, BitVec.getLsbD_setWidth]
    cases b <;> simp [h]

@[simp] theorem byteBits_nil : byteBits [] = [] := rfl

@[simp] theorem byteBits_cons (x : Byte) (xs : List Byte) : byteBits (x :: xs) = bitsMsb x 8 ++ byteBits xs := by
  simp [byteBits]

@[simp] theorem byteBits_append (xs ys : List Byte) : byteBits (xs ++ ys) = byteBits xs ++ byteBits ys := by
  simp [byteBits]

@[simp] theorem byteBits_length (xs : List Byte) : (byteBits xs).length = 8 * xs.length := by
  induction xs with
  | nil => rfl
  | cons x xs ih => simp [ih]; omega

end Sys2Proof.Machine
end

