-- ==== Sys2Proof/Laws/State.lean ====
section
/-! SUPPORT. What each named update of the state does to each field: one lemma a field, so that no later proof unfolds a record
update. -/

namespace Sys2Proof.Machine


/-! ## `State.resetWith` (rule R55) -/

@[simp] theorem State.resetWith_busy (cap : Word) : (State.resetWith cap).busy = false := rfl
@[simp] theorem State.resetWith_fault (cap : Word) : (State.resetWith cap).fault = false := rfl
@[simp] theorem State.resetWith_err (cap : Word) : (State.resetWith cap).err = ErrRecord.clear := rfl
@[simp] theorem State.resetWith_arg (cap : Word) : (State.resetWith cap).arg = 0#32 := rfl
@[simp] theorem State.resetWith_result (cap : Word) : (State.resetWith cap).result = 0#32 := rfl
@[simp] theorem State.resetWith_dcount (cap : Word) : (State.resetWith cap).dcount = 0#32 := rfl
@[simp] theorem State.resetWith_paddr (cap : Word) : (State.resetWith cap).paddr = 0#32 := rfl
@[simp] theorem State.resetWith_payloadCap (cap : Word) : (State.resetWith cap).payloadCap = cap := rfl
@[simp] theorem State.resetWith_writer (cap : Word) : (State.resetWith cap).writer = Writer.closed := rfl
@[simp] theorem State.resetWith_reader (cap : Word) : (State.resetWith cap).reader = Reader.closed := rfl
@[simp] theorem State.resetWith_dout (cap : Word) : (State.resetWith cap).dout = [] := rfl
@[simp] theorem State.resetWith_pbuf (cap : Word) : (State.resetWith cap).pbuf = [] := rfl
@[simp] theorem State.resetWith_pending (cap : Word) : (State.resetWith cap).pending = [] := rfl
@[simp] theorem State.resetWith_offered (cap : Word) : (State.resetWith cap).offered = [] := rfl
@[simp] theorem State.resetWith_hostReads (cap : Word) : (State.resetWith cap).hostReads = [] := rfl
@[simp] theorem State.resetWith_undefDraws (cap : Word) : (State.resetWith cap).undefDraws = 0 := rfl
@[simp] theorem State.resetWith_workDraws (cap : Word) : (State.resetWith cap).workDraws = 0 := rfl

/-! ## `State.commandDone` (rule R25) -/

@[simp] theorem State.commandDone_busy (s : State) : s.commandDone.busy = false := rfl
@[simp] theorem State.commandDone_fault (s : State) : s.commandDone.fault = s.fault := rfl
@[simp] theorem State.commandDone_err (s : State) : s.commandDone.err = s.err := rfl
@[simp] theorem State.commandDone_arg (s : State) : s.commandDone.arg = s.arg := rfl
@[simp] theorem State.commandDone_result (s : State) : s.commandDone.result = s.result := rfl
@[simp] theorem State.commandDone_dcount (s : State) : s.commandDone.dcount = s.dcount := rfl
@[simp] theorem State.commandDone_paddr (s : State) : s.commandDone.paddr = s.paddr := rfl
@[simp] theorem State.commandDone_payloadCap (s : State) : s.commandDone.payloadCap = s.payloadCap := rfl
@[simp] theorem State.commandDone_writer (s : State) : s.commandDone.writer = s.writer := rfl
@[simp] theorem State.commandDone_reader (s : State) : s.commandDone.reader = s.reader := rfl
@[simp] theorem State.commandDone_dout (s : State) : s.commandDone.dout = s.dout := rfl
@[simp] theorem State.commandDone_pbuf (s : State) : s.commandDone.pbuf = s.pbuf := rfl
@[simp] theorem State.commandDone_pending (s : State) : s.commandDone.pending = s.pending := rfl
@[simp] theorem State.commandDone_offered (s : State) : s.commandDone.offered = [] := rfl
@[simp] theorem State.commandDone_hostReads (s : State) : s.commandDone.hostReads = s.hostReads := rfl
@[simp] theorem State.commandDone_undefDraws (s : State) : s.commandDone.undefDraws = s.undefDraws := rfl
@[simp] theorem State.commandDone_workDraws (s : State) : s.commandDone.workDraws = s.workDraws := rfl

/-! ## `State.hardReset` (rule R290) -/

@[simp] theorem State.hardReset_busy (s : State) : s.hardReset.busy = false := rfl
@[simp] theorem State.hardReset_fault (s : State) : s.hardReset.fault = false := rfl
@[simp] theorem State.hardReset_err (s : State) : s.hardReset.err = ErrRecord.clear := rfl
@[simp] theorem State.hardReset_arg (s : State) : s.hardReset.arg = 0#32 := rfl
@[simp] theorem State.hardReset_result (s : State) : s.hardReset.result = 0#32 := rfl
@[simp] theorem State.hardReset_dcount (s : State) : s.hardReset.dcount = 0#32 := rfl
@[simp] theorem State.hardReset_paddr (s : State) : s.hardReset.paddr = 0#32 := rfl
@[simp] theorem State.hardReset_payloadCap (s : State) : s.hardReset.payloadCap = s.payloadCap := rfl
@[simp] theorem State.hardReset_writer (s : State) : s.hardReset.writer = Writer.closed := rfl
@[simp] theorem State.hardReset_reader (s : State) : s.hardReset.reader = Reader.closed := rfl
@[simp] theorem State.hardReset_dout (s : State) : s.hardReset.dout = [] := rfl
@[simp] theorem State.hardReset_pbuf (s : State) : s.hardReset.pbuf = [] := rfl
@[simp] theorem State.hardReset_pending (s : State) : s.hardReset.pending = s.pending := rfl
@[simp] theorem State.hardReset_offered (s : State) : s.hardReset.offered = [] := rfl
@[simp] theorem State.hardReset_hostReads (s : State) : s.hardReset.hostReads = s.hostReads := rfl
@[simp] theorem State.hardReset_undefDraws (s : State) : s.hardReset.undefDraws = s.undefDraws + 1 := rfl
@[simp] theorem State.hardReset_workDraws (s : State) : s.hardReset.workDraws = s.workDraws + 1 := rfl

/-! ## `State.softReset` (rule R251) -/

@[simp] theorem State.softReset_busy (s : State) : s.softReset.busy = false := rfl
@[simp] theorem State.softReset_fault (s : State) : s.softReset.fault = false := rfl
@[simp] theorem State.softReset_err (s : State) : s.softReset.err = ErrRecord.clear := rfl
@[simp] theorem State.softReset_arg (s : State) : s.softReset.arg = 0#32 := rfl
@[simp] theorem State.softReset_result (s : State) : s.softReset.result = 0#32 := rfl
@[simp] theorem State.softReset_dcount (s : State) : s.softReset.dcount = 0#32 := rfl
@[simp] theorem State.softReset_paddr (s : State) : s.softReset.paddr = 0#32 := rfl
@[simp] theorem State.softReset_payloadCap (s : State) : s.softReset.payloadCap = s.payloadCap := rfl
@[simp] theorem State.softReset_writer (s : State) : s.softReset.writer = Writer.closed := rfl
@[simp] theorem State.softReset_reader (s : State) : s.softReset.reader = Reader.closed := rfl
@[simp] theorem State.softReset_dout (s : State) : s.softReset.dout = [] := rfl
@[simp] theorem State.softReset_pbuf (s : State) : s.softReset.pbuf = s.pbuf := rfl
@[simp] theorem State.softReset_pending (s : State) : s.softReset.pending = s.pending := rfl
@[simp] theorem State.softReset_offered (s : State) : s.softReset.offered = [] := rfl
@[simp] theorem State.softReset_hostReads (s : State) : s.softReset.hostReads = s.hostReads := rfl
@[simp] theorem State.softReset_undefDraws (s : State) : s.softReset.undefDraws = s.undefDraws := rfl
@[simp] theorem State.softReset_workDraws (s : State) : s.softReset.workDraws = s.workDraws + 1 := rfl

/-! ## `State.withFetchWord` -/

@[simp] theorem State.withFetchWord_busy (s : State) (nbits w : Nat) : (s.withFetchWord nbits w).busy = false := rfl
@[simp] theorem State.withFetchWord_fault (s : State) (nbits w : Nat) : (s.withFetchWord nbits w).fault = s.fault := rfl
@[simp] theorem State.withFetchWord_err (s : State) (nbits w : Nat) : (s.withFetchWord nbits w).err = s.err := rfl
@[simp] theorem State.withFetchWord_arg (s : State) (nbits w : Nat) : (s.withFetchWord nbits w).arg = s.arg := rfl
@[simp] theorem State.withFetchWord_result (s : State) (nbits w : Nat) : (s.withFetchWord nbits w).result = s.result := rfl
@[simp] theorem State.withFetchWord_dcount (s : State) (nbits w : Nat) : (s.withFetchWord nbits w).dcount = s.dcount := rfl
@[simp] theorem State.withFetchWord_paddr (s : State) (nbits w : Nat) : (s.withFetchWord nbits w).paddr = s.paddr := rfl
@[simp] theorem State.withFetchWord_payloadCap (s : State) (nbits w : Nat) : (s.withFetchWord nbits w).payloadCap = s.payloadCap := rfl
@[simp] theorem State.withFetchWord_writer (s : State) (nbits w : Nat) : (s.withFetchWord nbits w).writer = s.writer := rfl
@[simp] theorem State.withFetchWord_reader (s : State) (nbits w : Nat) : (s.withFetchWord nbits w).reader = s.reader := rfl
@[simp] theorem State.withFetchWord_dout (s : State) (nbits w : Nat) : (s.withFetchWord nbits w).dout = s.dout := rfl
@[simp] theorem State.withFetchWord_pbuf (s : State) (nbits w : Nat) : (s.withFetchWord nbits w).pbuf = s.pbuf := rfl
@[simp] theorem State.withFetchWord_pending (s : State) (nbits w : Nat) : (s.withFetchWord nbits w).pending = commandWrite nbits w :: s.pending := rfl
@[simp] theorem State.withFetchWord_offered (s : State) (nbits w : Nat) : (s.withFetchWord nbits w).offered = s.offered := rfl
@[simp] theorem State.withFetchWord_hostReads (s : State) (nbits w : Nat) : (s.withFetchWord nbits w).hostReads = s.hostReads := rfl
@[simp] theorem State.withFetchWord_undefDraws (s : State) (nbits w : Nat) : (s.withFetchWord nbits w).undefDraws = s.undefDraws := rfl
@[simp] theorem State.withFetchWord_workDraws (s : State) (nbits w : Nat) : (s.withFetchWord nbits w).workDraws = s.workDraws := rfl

/-! ## `State.raise` (rule R262) -/

@[simp] theorem State.raise_busy (s : State) (c : FaultCode) (o : Byte) (p : Phase) : (s.raise c o p).busy = s.busy := by
  unfold State.raise; split <;> rfl

@[simp] theorem State.raise_arg (s : State) (c : FaultCode) (o : Byte) (p : Phase) : (s.raise c o p).arg = s.arg := by
  unfold State.raise; split <;> rfl

@[simp] theorem State.raise_result (s : State) (c : FaultCode) (o : Byte) (p : Phase) : (s.raise c o p).result = s.result := by
  unfold State.raise; split <;> rfl

@[simp] theorem State.raise_dcount (s : State) (c : FaultCode) (o : Byte) (p : Phase) : (s.raise c o p).dcount = s.dcount := by
  unfold State.raise; split <;> rfl

@[simp] theorem State.raise_paddr (s : State) (c : FaultCode) (o : Byte) (p : Phase) : (s.raise c o p).paddr = s.paddr := by
  unfold State.raise; split <;> rfl

@[simp] theorem State.raise_payloadCap (s : State) (c : FaultCode) (o : Byte) (p : Phase) : (s.raise c o p).payloadCap = s.payloadCap := by
  unfold State.raise; split <;> rfl

@[simp] theorem State.raise_writer (s : State) (c : FaultCode) (o : Byte) (p : Phase) : (s.raise c o p).writer = s.writer := by
  unfold State.raise; split <;> rfl

@[simp] theorem State.raise_reader (s : State) (c : FaultCode) (o : Byte) (p : Phase) : (s.raise c o p).reader = s.reader := by
  unfold State.raise; split <;> rfl

@[simp] theorem State.raise_dout (s : State) (c : FaultCode) (o : Byte) (p : Phase) : (s.raise c o p).dout = s.dout := by
  unfold State.raise; split <;> rfl

@[simp] theorem State.raise_pbuf (s : State) (c : FaultCode) (o : Byte) (p : Phase) : (s.raise c o p).pbuf = s.pbuf := by
  unfold State.raise; split <;> rfl

@[simp] theorem State.raise_pending (s : State) (c : FaultCode) (o : Byte) (p : Phase) : (s.raise c o p).pending = s.pending := by
  unfold State.raise; split <;> rfl

@[simp] theorem State.raise_offered (s : State) (c : FaultCode) (o : Byte) (p : Phase) : (s.raise c o p).offered = s.offered := by
  unfold State.raise; split <;> rfl

@[simp] theorem State.raise_hostReads (s : State) (c : FaultCode) (o : Byte) (p : Phase) : (s.raise c o p).hostReads = s.hostReads := by
  unfold State.raise; split <;> rfl

@[simp] theorem State.raise_undefDraws (s : State) (c : FaultCode) (o : Byte) (p : Phase) : (s.raise c o p).undefDraws = s.undefDraws := by
  unfold State.raise; split <;> rfl

@[simp] theorem State.raise_workDraws (s : State) (c : FaultCode) (o : Byte) (p : Phase) : (s.raise c o p).workDraws = s.workDraws := by
  unfold State.raise; split <;> rfl

@[simp] theorem State.raise_fault (s : State) (c : FaultCode) (o : Byte) (p : Phase) : (s.raise c o p).fault = true := by
  unfold State.raise; split
  · assumption
  · rfl

@[simp] theorem State.raise_err (s : State) (c : FaultCode) (o : Byte) (p : Phase) :
    (s.raise c o p).err = if s.fault then s.err else ⟨c, o, p⟩ := by
  unfold State.raise; split <;> rfl

end Sys2Proof.Machine
end

