-- ==== Sys2Proof/Laws/Reader.lean ====
section
/-! SUPPORT. Laws of the bit reader: a read takes the next unconsumed bits, or consumes what is left and ends. -/

namespace Sys2Proof.Machine

/-- `b` is the next unconsumed bit exactly when `ReadBit` gives it. -/
theorem Reader.readBit_got {r : Reader} {b : Bool} {rest : List Bool} (h : r.unread = b :: rest) :
    ∃ r', r.readBit = .got b r' ∧ r'.unread = rest ∧ r'.isOpen = r.isOpen := by
  unfold Reader.readBit
  split
  · rename_i h0
    cases hr : r.rin with
    | nil => simp [Reader.unread, h0, hr] at h
    | cons x xs =>
      simp only [Reader.unread, h0, hr, bitsMsb_zero, byteBits_cons, bitsMsb_succ x 7, List.nil_append, List.cons_append,
        List.cons.injEq] at h
      refine ⟨{ r with buf := x, count := 7, rin := xs }, congrArg (Reading.got · _) h.1, ?_, rfl⟩
      simpa [Reader.unread] using h.2
  · rename_i h0
    obtain ⟨n, hn⟩ : ∃ n, r.count = n + 1 := ⟨r.count - 1, by omega⟩
    simp only [Reader.unread, hn, bitsMsb_succ, List.cons_append, List.cons.injEq] at h
    refine ⟨{ r with count := r.count - 1 }, ?_, ?_, rfl⟩
    · simp [hn, ← h.1]
    · simpa [Reader.unread, hn] using h.2

theorem Reader.unread_eq_nil {r : Reader} : r.unread = [] ↔ r.count = 0 ∧ r.rin = [] := by
  rw [← List.length_eq_zero_iff]
  simp [Reader.unread]

/-- With no unconsumed bit, `ReadBit` ends and changes nothing. -/
theorem Reader.readBit_ended {r : Reader} (h : r.unread = []) : r.readBit = .ended r := by
  obtain ⟨h0, hr⟩ := Reader.unread_eq_nil.mp h
  simp [Reader.readBit, h0, hr]

/-- What `readBitsInto` makes of bits `bs` shifted into `acc`. -/
def shiftInto (acc : Word) (bs : List Bool) : Word :=
  bs.foldl (fun v b => (v <<< 1) ||| (BitVec.ofBool b).setWidth 32) acc

theorem Reader.readBitsInto_got {r : Reader} {bs rest : List Bool} (acc : Word) (h : r.unread = bs ++ rest) :
    ∃ r', r.readBitsInto acc bs.length = .got (shiftInto acc bs) r' ∧ r'.unread = rest ∧ r'.isOpen = r.isOpen := by
  induction bs generalizing r acc with
  | nil => exact ⟨r, rfl, by simpa using h, rfl⟩
  | cons b bs ih =>
    obtain ⟨r1, h1, h2, h3⟩ := Reader.readBit_got (r := r) (b := b) (rest := bs ++ rest) (by simpa using h)
    obtain ⟨r2, h4, h5, h6⟩ := ih _ h2
    refine ⟨r2, ?_, h5, by rw [h6, h3]⟩
    simp only [List.length_cons, Reader.readBitsInto, h1]
    exact h4

theorem Reader.readBitsInto_ended {r : Reader} {n : Nat} (acc : Word) (h : r.unread.length < n) :
    ∃ r', r.readBitsInto acc n = .ended r' ∧ r'.unread = [] ∧ r'.isOpen = r.isOpen := by
  induction n generalizing r acc with
  | zero => omega
  | succ n ih =>
    cases hu : r.unread with
    | nil =>
      exact ⟨r, by simp [Reader.readBitsInto, Reader.readBit_ended hu], hu, rfl⟩
    | cons b rest =>
      obtain ⟨r1, h1, h2, h3⟩ := Reader.readBit_got hu
      obtain ⟨r2, h4, h5, h6⟩ := ih (r := r1) ((acc <<< 1) ||| (BitVec.ofBool b).setWidth 32)
        (by rw [h2]; rw [hu] at h; simpa using h)
      exact ⟨r2, by simp [Reader.readBitsInto, h1, h4], h5, by rw [h6, h3]⟩

/-- The bits of the value: the bits read, with the old value shifted up. -/
theorem shiftInto_getLsbD (acc : Word) (bs : List Bool) (j : Nat) (hj : j < 32) :
    (shiftInto acc bs).getLsbD j = if h : j < bs.length then bs[bs.length - 1 - j] else acc.getLsbD (j - bs.length) := by
  induction bs generalizing acc with
  | nil => simp [shiftInto]
  | cons b bs ih =>
    have step : shiftInto acc (b :: bs) = shiftInto ((acc <<< 1) ||| (BitVec.ofBool b).setWidth 32) bs := rfl
    rw [step, ih]
    by_cases h1 : j < bs.length
    · have h2 : j < (b :: bs).length := by simp; omega
      have e : (b :: bs).length - 1 - j = (bs.length - 1 - j) + 1 := by simp; omega
      simp only [h1, h2, dite_true, e, List.getElem_cons_succ]
    · simp only [h1, dite_false]
      by_cases h2 : j = bs.length
      · subst h2
        cases b <;> simp
      · have h3 : ¬ j < (b :: bs).length := by simp; omega
        obtain ⟨k, hk⟩ : ∃ k, j - bs.length = k + 1 := ⟨j - bs.length - 1, by omega⟩
        have e : j - (b :: bs).length = k := by simp; omega
        have hk32 : k + 1 < 32 := by omega
        simp only [h3, dite_false, e, hk, BitVec.getLsbD_or, BitVec.getLsbD_shiftLeft, BitVec.getLsbD_setWidth]
        cases b <;> simp [hk32]

/-- Read back, the value's low bits are the bits read. -/
theorem bitsMsb_shiftInto {bs : List Bool} (acc : Word) (h : bs.length ≤ 32) :
    bitsMsb (shiftInto acc bs) bs.length = bs := by
  apply List.ext_getElem
  · simp
  · intro k h1 h2
    have hk : k < bs.length := h2
    rw [bitsMsb_getElem, shiftInto_getLsbD _ _ _ (by omega)]
    have e : bs.length - 1 - (bs.length - 1 - k) = k := by omega
    have hlt : bs.length - 1 - k < bs.length := by omega
    simp only [hlt, dite_true, e]

/-- `n` bits make a value below `2^n`. -/
theorem shiftInto_lt {bs : List Bool} : (shiftInto 0#32 bs).toNat < 2 ^ bs.length := by
  apply Nat.lt_pow_two_of_testBit
  intro i hi
  rw [BitVec.testBit_toNat]
  by_cases h : i < 32
  · rw [shiftInto_getLsbD _ _ _ h]
    have : ¬ i < bs.length := by omega
    simp [this]
  · exact BitVec.getLsbD_of_ge _ _ (by omega)

/-- Everything a complete `ReadBits(n)` does: it consumes the next `n` bits, and the value's bits are those bits. -/
theorem Reader.readBits_got {r : Reader} {bs rest : List Bool} (h : r.unread = bs ++ rest) (hn : bs.length ≤ 32) :
    ∃ v r', r.readBits bs.length = .got v r' ∧ bitsMsb v bs.length = bs ∧ v.toNat < 2 ^ bs.length ∧ r'.unread = rest ∧
      r'.isOpen = r.isOpen := by
  obtain ⟨r', h1, h2, h3⟩ := Reader.readBitsInto_got 0#32 h
  exact ⟨_, r', h1, bitsMsb_shiftInto _ hn, shiftInto_lt, h2, h3⟩

/-- Everything an exhausted `ReadBits(n)` does: it consumes every bit that is left. -/
theorem Reader.readBits_ended {r : Reader} {n : Nat} (h : r.unread.length < n) :
    ∃ r', r.readBits n = .ended r' ∧ r'.unread = [] ∧ r'.isOpen = r.isOpen :=
  Reader.readBitsInto_ended 0#32 h

/-- Two values below `2^n` with the same low `n` bits are equal. -/
theorem eq_of_bitsMsb_eq {w : Nat} {v v' : BitVec w} {n : Nat} (h : bitsMsb v n = bitsMsb v' n)
    (hv : v.toNat < 2 ^ n) (hv' : v'.toNat < 2 ^ n) : v = v' := by
  apply BitVec.eq_of_getLsbD_eq
  intro i _
  by_cases hi : i < n
  · have h1 : n - 1 - i < (bitsMsb v n).length := by simp; omega
    have h2 : n - 1 - i < (bitsMsb v' n).length := by simp; omega
    have e : n - 1 - (n - 1 - i) = i := by omega
    have := List.getElem_of_eq h h1
    rw [bitsMsb_getElem, bitsMsb_getElem, e] at this
    exact this
  · have big (u : BitVec w) (hu : u.toNat < 2 ^ n) : u.getLsbD i = false := by
      rw [← BitVec.testBit_toNat]
      exact Nat.testBit_lt_two_pow (Nat.lt_of_lt_of_le hu (Nat.pow_le_pow_right (by decide) (by omega)))
    rw [big v hv, big v' hv']

/-- What reading a value's own bits gives back. -/
theorem Reader.readBits_of_bits {r : Reader} {v : Word} {n : Nat} {rest : List Bool} (h : r.unread = bitsMsb v n ++ rest)
    (hn : n ≤ 32) (hv : v.toNat < 2 ^ n) : ∃ r', r.readBits n = .got v r' ∧ r'.unread = rest ∧ r'.isOpen = r.isOpen := by
  obtain ⟨v', r', h1, h2, h3, h4, h5⟩ := Reader.readBits_got h (by simpa using hn)
  simp only [bitsMsb_length] at h1 h2 h3
  exact ⟨r', by rw [h1, eq_of_bitsMsb_eq h2 h3 hv], h4, h5⟩

theorem Reader.readBit_count {r r' : Reader} {b : Bool} (h : r.readBit = .got b r') (hc : r.count ≤ 8) : r'.count ≤ 7 := by
  unfold Reader.readBit at h
  split at h
  · split at h
    · cases h
    · cases h; simp
  · cases h; simp; omega

/-- `Avail()` is true exactly when an unconsumed bit is left (rule R160). -/
theorem Reader.avail_iff {r : Reader} : r.avail = true ↔ r.unread ≠ [] := by
  rw [ne_eq, Reader.unread_eq_nil]
  simp only [Reader.avail, Bool.or_eq_true, decide_eq_true_eq, Bool.not_eq_true', List.isEmpty_eq_false_iff, ne_eq, not_and]
  constructor
  · rintro (h | h) h0
    · omega
    · exact h
  · intro h
    by_cases h0 : r.count = 0
    · exact .inr (h h0)
    · exact .inl (by omega)

theorem Reader.closed_inv : Reader.closed.Inv := ⟨by decide, fun _ => rfl⟩

/-! ## What a read consumes -/

/-- What is true of the reader `r'` that any reads leave of `r`: they take a run of bytes from the front of `RIN` and consume a run of
bits from the front of the unconsumed ones, and the last byte taken has lost a bit. -/
def Reader.Consumes (r r' : Reader) : Prop :=
  r'.isOpen = r.isOpen ∧ ∃ (taken : List Byte) (consumed : List Bool), r.rin = taken ++ r'.rin ∧
    r.unread = consumed ++ r'.unread ∧ consumed.length + r'.count = 8 * taken.length + r.count ∧ (taken ≠ [] → r'.count ≤ 7)

theorem Reader.Consumes.refl (r : Reader) : r.Consumes r := ⟨rfl, [], [], rfl, rfl, by simp, by simp⟩

theorem Reader.Consumes.trans {a b c : Reader} (h : a.Consumes b) (h' : b.Consumes c) : a.Consumes c := by
  obtain ⟨o1, t1, c1, e1, f1, g1, l1⟩ := h
  obtain ⟨o2, t2, c2, e2, f2, g2, l2⟩ := h'
  refine ⟨o2.trans o1, t1 ++ t2, c1 ++ c2, by rw [e1, e2, List.append_assoc], by rw [f1, f2, List.append_assoc], ?_, ?_⟩
  · simp; omega
  · intro hne
    by_cases h2 : t2 = []
    · subst h2
      have := l1 (by simpa using hne)
      simp at g2; omega
    · exact l2 h2

theorem Reader.Consumes.count_le {a b : Reader} (h : a.Consumes b) (ha : a.count ≤ 8) : b.count ≤ 8 := by
  obtain ⟨-, t, c, -, -, g, l⟩ := h
  by_cases h2 : t = []
  · subst h2; simp at g; omega
  · have := l h2; omega

/-- Reads keep rule R44's invariant of an open reader. -/
theorem Reader.Consumes.inv {r r' : Reader} (h : r.Consumes r') (hi : r.Inv) (ho : r.isOpen = true) : r'.Inv :=
  ⟨h.count_le hi.count_le, fun hc => by rw [h.1, ho] at hc; cases hc⟩

theorem Reader.readBit_consumes {r r' : Reader} {b : Bool} (h : r.readBit = .got b r') : r.Consumes r' := by
  unfold Reader.readBit at h
  split at h
  · rename_i h0
    split at h
    · cases h
    · rename_i x xs hx
      cases h
      exact ⟨rfl, [x], [x.getLsbD 7], by simp [hx], by simp [Reader.unread, h0, hx, bitsMsb], by simp [h0], by simp⟩
  · rename_i h0
    cases h
    obtain ⟨n, hn⟩ : ∃ n, r.count = n + 1 := ⟨r.count - 1, by omega⟩
    exact ⟨rfl, [], [r.buf.getLsbD (r.count - 1)], rfl, by simp [Reader.unread, hn, bitsMsb], by simp [hn]; omega, by simp⟩

theorem Reader.readBit_ended_eq {r r' : Reader} (h : r.readBit = .ended r') : r' = r ∧ r.unread = [] := by
  unfold Reader.readBit at h
  split at h
  · rename_i h0
    split at h
    · rename_i hx; cases h; exact ⟨rfl, Reader.unread_eq_nil.mpr ⟨h0, hx⟩⟩
    · cases h
  · cases h

/-- What a reading may leave of `r`: it consumes, and where it ended no bit is left. -/
def Reading.From {α : Type} (x : Reading α) (r : Reader) : Prop :=
  match x with
  | .got _ r' => r.Consumes r'
  | .ended r' => r.Consumes r' ∧ r'.unread = []

theorem Reader.readBitsInto_from (n : Nat) (r : Reader) (acc : Word) : (r.readBitsInto acc n).From r := by
  induction n generalizing r acc with
  | zero => exact .refl r
  | succ n ih =>
    unfold Reader.readBitsInto
    cases h : r.readBit with
    | ended r1 =>
      obtain ⟨rfl, hu⟩ := Reader.readBit_ended_eq h
      exact ⟨.refl _, hu⟩
    | got b r1 =>
      have h1 := Reader.readBit_consumes h
      have h2 := ih r1 ((acc <<< 1) ||| (BitVec.ofBool b).setWidth 32)
      cases h3 : r1.readBitsInto ((acc <<< 1) ||| (BitVec.ofBool b).setWidth 32) n with
      | got v r2 => rw [h3] at h2; simp only [h3]; exact h1.trans h2
      | ended r2 => rw [h3] at h2; simp only [h3]; exact ⟨h1.trans h2.1, h2.2⟩

/-- Everything `ReadBits` does to the reader. -/
theorem Reader.readBits_from (r : Reader) (n : Nat) : (r.readBits n).From r := Reader.readBitsInto_from n r 0#32

/-- A run of reads can be cut anywhere. -/
theorem Reader.readBitsInto_add (r : Reader) (acc : Word) (m n : Nat) :
    r.readBitsInto acc (m + n) =
      match r.readBitsInto acc m with
      | .ended r' => .ended r'
      | .got v r' => r'.readBitsInto v n := by
  induction m generalizing r acc with
  | zero => simp [Reader.readBitsInto]
  | succ m ih =>
    rw [Nat.succ_add]
    simp only [Reader.readBitsInto]
    cases r.readBit with
    | ended r => rfl
    | got b r => exact ih _ _

end Sys2Proof.Machine
end

