-- ==== Sys2Proof/Laws/Trie.lean ====
section
/-! SUPPORT. Laws of the trie: its counts and paths, the queue that builds it, reading it, and descending it. -/

namespace Sys2Proof.Machine

/-! ## Counts -/

theorem Trie.one_le_leaves (t : Trie) : 1 ≤ t.leaves := by
  induction t with
  | leaf v => exact Nat.le_refl 1
  | node l r ihl ihr => simp [Trie.leaves]; omega

/-- A trie is a full binary tree (rule R188). -/
theorem Trie.size_eq (t : Trie) : t.size + 1 = 2 * t.leaves := by
  induction t with
  | leaf v => rfl
  | node l r ihl ihr => simp [Trie.size, Trie.leaves]; omega

/-- A serialized trie has 9 bits a leaf and 1 bit an internal node (rule R192). -/
theorem Trie.serialize_length (t : Trie) : t.serialize.length + 1 = 10 * t.leaves := by
  induction t with
  | leaf v => simp [Trie.serialize, Trie.leaves]
  | node l r ihl ihr => simp [Trie.serialize, Trie.leaves]; omega

/-! ## Nodes in pre-order -/

@[simp] theorem Trie.preorder_length (t : Trie) : t.preorder.length = t.size := by
  induction t with
  | leaf v => rfl
  | node l r ihl ihr => simp [Trie.preorder, Trie.size, ihl, ihr]; omega

/-- A serialized trie is its nodes' bits, in order (rule R186). -/
theorem Trie.serialize_eq (t : Trie) : t.serialize = t.preorder.flatMap nodeBits := by
  induction t with
  | leaf v => simp [Trie.serialize, Trie.preorder, nodeBits]
  | node l r ihl ihr => simp [Trie.serialize, Trie.preorder, nodeBits, ihl, ihr]

theorem Trie.one_le_size (t : Trie) : 1 ≤ t.size := by
  cases t <;> simp [Trie.size]; omega

/-- The bits of the first `k` nodes: all of them where the trie has no more than `k`. -/
def Trie.firstBits (t : Trie) (k : Nat) : List Bool := (t.preorder.take k).flatMap nodeBits

theorem Trie.firstBits_of_size_le {t : Trie} {k : Nat} (h : t.size ≤ k) : t.firstBits k = t.serialize := by
  rw [Trie.firstBits, List.take_of_length_le (by simpa using h), Trie.serialize_eq]

theorem Trie.firstBits_node (l r : Trie) (k : Nat) :
    (Trie.node l r).firstBits (k + 1) = false :: (l.firstBits k ++ r.firstBits (k - l.size)) := by
  simp [Trie.firstBits, Trie.preorder, List.take_append, nodeBits]

@[simp] theorem Trie.firstBits_leaf (v : Byte) (k : Nat) : (Trie.leaf v).firstBits (k + 1) = true :: bitsMsb v 8 := by
  simp [Trie.firstBits, Trie.preorder, nodeBits]

@[simp] theorem Trie.firstBits_zero (t : Trie) : t.firstBits 0 = [] := rfl

/-! ## Paths -/

/-- The path so far only prefixes the codes. -/
theorem Trie.walk_eq (t : Trie) (p : List Bool) : t.walk p = (t.walk []).map fun c => (c.1, p ++ c.2) := by
  induction t generalizing p with
  | leaf v => simp [Trie.walk]
  | node l r ihl ihr =>
    simp only [Trie.walk, List.nil_append, List.map_append]
    rw [ihl (p ++ [false]), ihr (p ++ [true]), ihl [false], ihr [true]]
    simp [Function.comp_def]

theorem Trie.walk_length (t : Trie) (p : List Bool) : (t.walk p).length = t.leaves := by
  induction t generalizing p with
  | leaf v => rfl
  | node l r ihl ihr => simp [Trie.walk, Trie.leaves, ihl, ihr]

/-- The byte values of the leaves, in pre-order. -/
def Trie.values (t : Trie) : List Byte := (t.walk []).map Prod.fst

@[simp] theorem Trie.values_leaf (v : Byte) : (Trie.leaf v).values = [v] := rfl

@[simp] theorem Trie.values_node (l r : Trie) : (Trie.node l r).values = l.values ++ r.values := by
  simp only [Trie.values, Trie.walk, List.map_append, List.nil_append]
  rw [Trie.walk_eq l [false], Trie.walk_eq r [true]]
  simp [Function.comp_def]

@[simp] theorem Trie.values_length (t : Trie) : t.values.length = t.leaves := by
  simp [Trie.values, Trie.walk_length]

/-- A code in the table of an internal node is a code of one child, behind that child's edge. -/
theorem Trie.mem_walk_node {l r : Trie} {v : Byte} {p : List Bool} :
    (v, p) ∈ (Trie.node l r).walk [] ↔
      (∃ q, p = false :: q ∧ (v, q) ∈ l.walk []) ∨ (∃ q, p = true :: q ∧ (v, q) ∈ r.walk []) := by
  simp only [Trie.walk, List.nil_append, List.mem_append]
  rw [Trie.walk_eq l [false], Trie.walk_eq r [true]]
  simp [eq_comm, and_comm]

/-! ## Code lookup -/

theorem lookup_mem {table : List (Byte × List Bool)} {v : Byte} {p : List Bool} (h : table.lookup v = some p) :
    (v, p) ∈ table := by
  induction table with
  | nil => simp at h
  | cons c rest ih =>
    obtain ⟨a, q⟩ := c
    rw [List.lookup_cons] at h
    split at h
    · rename_i hv
      simp at h hv
      simp [hv, h]
    · exact List.mem_cons_of_mem _ (ih h)

/-- A byte value with a leaf has its code in the table. -/
theorem codeOf_mem {table : List (Byte × List Bool)} {v : Byte} (h : v ∈ table.map Prod.fst) : (v, codeOf table v) ∈ table := by
  induction table with
  | nil => simp at h
  | cons c rest ih =>
    obtain ⟨a, q⟩ := c
    unfold codeOf
    rw [List.lookup_cons]
    by_cases hv : v = a
    · subst hv; simp
    · have h2 : v ∈ rest.map Prod.fst := by simpa [hv] using h
      have h3 : (v == a) = false := by simpa using hv
      rw [h3]
      exact List.mem_cons_of_mem _ (ih h2)

/-! ## The queue -/

/-- `ExtractMin` removes one entry: what it returns and what it leaves are the queue. -/
theorem extractMin_perm (x : QueueEntry) (rest : List QueueEntry) :
    ((extractMin x rest).1 :: (extractMin x rest).2).Perm (x :: rest) := by
  induction rest generalizing x with
  | nil => exact List.Perm.refl _
  | cons y rest ih =>
    simp only [extractMin]
    split
    · exact List.Perm.refl _
    · exact (List.Perm.swap _ _ _).trans ((ih y).cons x)

theorem extractMin_length (x : QueueEntry) (rest : List QueueEntry) : (extractMin x rest).2.length = rest.length := by
  simpa using (extractMin_perm x rest).length_eq

/-- The byte values of all the leaves in a queue. -/
def queueValues (q : List QueueEntry) : List Byte := q.flatMap fun e => e.trie.values

theorem queueValues_perm {q q' : List QueueEntry} (h : q.Perm q') : (queueValues q).Perm (queueValues q') :=
  h.flatMap_right _

/-- The merge loop keeps every leaf: the trie it ends with has exactly the queue's leaves. -/
theorem mergeLoop_values (fuel seq : Nat) (x : QueueEntry) (rest : List QueueEntry) (h : rest.length ≤ fuel) :
    (mergeLoop fuel seq x rest).values.Perm (queueValues (x :: rest)) := by
  induction fuel generalizing seq x rest with
  | zero =>
    have : rest = [] := List.eq_nil_of_length_eq_zero (by omega)
    simp [this, mergeLoop, queueValues]
  | succ fuel ih =>
    have p1 := extractMin_perm x rest
    have l1 := extractMin_length x rest
    simp only [mergeLoop]
    generalize extractMin x rest = e at p1 l1
    obtain ⟨least, others⟩ := e
    cases others with
    | nil => simpa [queueValues] using queueValues_perm p1
    | cons y others =>
      have p2 := extractMin_perm y others
      have l2 := extractMin_length y others
      simp only
      generalize extractMin y others = e2 at p2 l2
      obtain ⟨second, remaining⟩ := e2
      simp only
      refine (ih (seq + 1) (newInternal seq least second) remaining ?_).trans ?_
      · simp at l1 l2; omega
      · have p3 := queueValues_perm p1
        have p4 := queueValues_perm p2
        simp only [queueValues, List.flatMap_cons, newInternal, Trie.values_node, List.append_assoc] at p3 p4 ⊢
        exact (p4.append_left least.trie.values).trans p3

/-- No entry of the queue precedes the one `ExtractMin` returns. -/
theorem extractMin_least (x : QueueEntry) (rest : List QueueEntry) : ∀ z ∈ x :: rest, ¬ z.Precedes (extractMin x rest).1 := by
  induction rest generalizing x with
  | nil => simp [extractMin, QueueEntry.Precedes]
  | cons y rest ih =>
    have h := ih y
    simp only [extractMin]
    generalize extractMin y rest = e at h
    obtain ⟨least, others⟩ := e
    split
    · rename_i hb
      simp only [QueueEntry.before, decide_eq_true_eq] at hb
      intro z hz
      rcases List.mem_cons.mp hz with rfl | hz
      · simp [QueueEntry.Precedes]
      · have := h z hz
        simp only [QueueEntry.Precedes] at this ⊢
        omega
    · rename_i hb
      simp only [QueueEntry.before, decide_eq_true_eq] at hb
      intro z hz
      rcases List.mem_cons.mp hz with rfl | hz
      · exact hb
      · exact h z hz

/-- Among entries of distinct `seq` one always precedes the other. -/
theorem QueueEntry.precedes_of_not {x y : QueueEntry} (h : ¬ y.Precedes x) (hne : x.seq ≠ y.seq) : x.Precedes y := by
  simp only [QueueEntry.Precedes] at h ⊢
  omega

/-- What the merge loop computes on a queue of distinct `seq`, all below `NTOP` (rule R183). -/
theorem mergeLoop_mergesTo (fuel ntop : Nat) (x : QueueEntry) (rest : List QueueEntry) (h : rest.length ≤ fuel)
    (hseq : ((x :: rest).map QueueEntry.seq).Nodup) (hlt : ∀ z ∈ x :: rest, z.seq < ntop) :
    MergesTo ntop (x :: rest) (mergeLoop fuel ntop x rest) := by
  induction fuel generalizing ntop x rest with
  | zero =>
    obtain rfl : rest = [] := List.eq_nil_of_length_eq_zero (by omega)
    exact .done ntop x
  | succ fuel ih =>
    have p1 := extractMin_perm x rest
    have m1 := extractMin_least x rest
    simp only [mergeLoop]
    generalize extractMin x rest = e at p1 m1
    obtain ⟨a, others⟩ := e
    cases others with
    | nil =>
      obtain ⟨rfl, rfl⟩ : a = x ∧ rest = [] := by simpa [eq_comm] using p1
      exact .done ntop a
    | cons y others =>
      have p2 := extractMin_perm y others
      have m2 := extractMin_least y others
      simp only
      generalize extractMin y others = e2 at p2 m2
      obtain ⟨b, remaining⟩ := e2
      have p3 : (x :: rest).Perm (a :: b :: remaining) := p1.symm.trans (p2.symm.cons a)
      have nd := (p3.map QueueEntry.seq).nodup_iff.mp hseq
      simp only [List.map_cons, List.nodup_cons, List.mem_cons, List.mem_map, not_or, not_exists, not_and] at nd
      obtain ⟨⟨hab, ha⟩, hb, hr⟩ := nd
      refine .pass p3 ?_ ?_ (ih (ntop + 1) _ remaining ?_ ?_ ?_)
      · intro z hz
        refine QueueEntry.precedes_of_not (m1 z (p3.mem_iff.mpr (List.mem_cons_of_mem _ hz))) ?_
        rcases List.mem_cons.mp hz with rfl | hz
        · exact hab
        · exact fun e => ha z hz e.symm
      · intro z hz
        exact QueueEntry.precedes_of_not (m2 z (p2.mem_iff.mp (List.mem_cons_of_mem _ hz))) fun e => hb z hz e.symm
      · have l1 := p3.length_eq
        simp at l1; omega
      · simp only [List.map_cons, List.nodup_cons, List.mem_map, not_exists, not_and]
        refine ⟨fun z hz e => ?_, hr⟩
        have := hlt z (p3.mem_iff.mpr (by simp [hz]))
        omega
      · intro z hz
        rcases List.mem_cons.mp hz with rfl | hz
        · exact Nat.lt_succ_self ntop
        · have := hlt z (p3.mem_iff.mpr (by simp [hz]))
          omega

theorem newLeaves_values (seq : Nat) (leaves : List (Byte × Nat)) :
    queueValues (newLeaves seq leaves) = leaves.map Prod.fst := by
  induction leaves generalizing seq with
  | nil => rfl
  | cons c rest ih =>
    obtain ⟨v, w⟩ := c
    have := ih (seq + 1)
    simp only [queueValues] at this ⊢
    simp [newLeaves, this]

theorem newLeaves_length (seq : Nat) (leaves : List (Byte × Nat)) : (newLeaves seq leaves).length = leaves.length := by
  induction leaves generalizing seq with
  | nil => rfl
  | cons c rest ih => simp [newLeaves, ih]

/-- The leaves `NewLeaf` allocates from `NTOP = k`, by their places. -/
theorem newLeaves_zipIdx (k : Nat) (leaves : List (Byte × Nat)) :
    (leaves.zipIdx k).map (fun c => (⟨c.1.2, c.2, .leaf c.1.1⟩ : QueueEntry)) = newLeaves k leaves := by
  induction leaves generalizing k with
  | nil => rfl
  | cons c rest ih => simp [newLeaves, List.zipIdx_cons, ih]

/-- `NewLeaf` gives each leaf the `seq` of its place (rule R182). -/
theorem newLeaves_seq (k : Nat) (leaves : List (Byte × Nat)) :
    (newLeaves k leaves).map QueueEntry.seq = List.range' k leaves.length := by
  induction leaves generalizing k with
  | nil => rfl
  | cons c rest ih => simp [newLeaves, ih, List.range'_succ]

/-- The leaves of the trie `BuildTrie` returns are the leaves it allocated. -/
theorem buildTrie_values (payload : List Byte) :
    (buildTrie payload).values.Perm ((leafWeights payload).1.1 :: (leafWeights payload).2.map Prod.fst) := by
  unfold buildTrie
  generalize leafWeights payload = lw
  obtain ⟨⟨v, w⟩, rest⟩ := lw
  refine (mergeLoop_values _ _ _ _ (by rw [newLeaves_length])).trans ?_
  have := newLeaves_values 1 rest
  simp only [queueValues] at this ⊢
  simp [this]

/-! ## The leaves `BuildTrie` allocates -/

theorem mem_occurring {payload : List Byte} {v : Byte} : v ∈ (occurring payload).map Prod.fst ↔ v ∈ payload := by
  unfold occurring frequency
  simp only [List.mem_map, List.mem_filterMap, List.mem_range]
  constructor
  · rintro ⟨⟨a, w⟩, ⟨n, hn, h⟩, rfl⟩
    split at h
    · rename_i hpos
      cases h
      exact List.count_pos_iff.mp hpos
    · cases h
  · intro h
    refine ⟨(v, payload.count v), ⟨v.toNat, v.isLt, ?_⟩, rfl⟩
    simp [List.count_pos_iff.mpr h]

theorem occurring_eq (payload : List Byte) :
    occurring payload =
      (((List.range 256).map (BitVec.ofNat 8)).filter fun v => payload.contains v).map fun v => (v, payload.count v) := by
  unfold occurring frequency
  generalize List.range 256 = l
  induction l with
  | nil => rfl
  | cons n l ih =>
    by_cases h : BitVec.ofNat 8 n ∈ payload
    · simpa [List.count_pos_iff, h] using ih
    · simpa [List.count_pos_iff, h] using ih

/-- The queue `BuildTrie` fills is that of rule R182. -/
theorem leafQueue_eq (payload : List Byte) :
    leafQueue payload = newLeaves 0 ((leafWeights payload).1 :: (leafWeights payload).2) := by
  unfold leafQueue leafWeights
  rw [← occurring_eq, ← newLeaves_zipIdx]
  cases occurring payload with
  | nil => rfl
  | cons u rest => cases rest <;> rfl

theorem occurring_nodup (payload : List Byte) : ((occurring payload).map Prod.fst).Nodup := by
  have hinj : ∀ a ∈ List.range 256, ∀ b ∈ List.range 256, BitVec.ofNat 8 a = BitVec.ofNat 8 b → a = b := by
    intro a ha b hb h
    have := congrArg BitVec.toNat h
    simp only [BitVec.toNat_ofNat] at this
    rw [List.mem_range] at ha hb
    omega
  have hsub : ((occurring payload).map Prod.fst).Sublist ((List.range 256).map (BitVec.ofNat 8)) := by
    unfold occurring
    generalize List.range 256 = l
    induction l with
    | nil => simp
    | cons n l ih =>
      rw [List.filterMap_cons]
      split
      · exact ih.trans (List.sublist_cons_self _ _)
      · rename_i b hb
        split at hb
        · cases hb
          exact ih.cons_cons _
        · cases hb
  exact hsub.nodup (List.Nodup.map_on hinj List.nodup_range)

theorem occurring_length_le (payload : List Byte) : (occurring payload).length ≤ 256 := by
  unfold occurring
  exact (List.length_filterMap_le _ _).trans (by simp)

/-- Every payload byte has a leaf (rule R189). -/
theorem mem_values_buildTrie {payload : List Byte} {v : Byte} (h : v ∈ payload) : v ∈ (buildTrie payload).values := by
  rw [(buildTrie_values payload).mem_iff]
  have ho := mem_occurring.mpr h
  unfold leafWeights
  split
  · rename_i e; simp [e] at ho
  · rename_i u e
    have : v = u.1 := by simpa [e] using ho
    simp [this]
  · rename_i u w rest e
    simpa [e] using ho

/-- The number of leaves: the distinct byte values, or 2 when there are fewer (rule R182). -/
theorem buildTrie_leaves (payload : List Byte) : (buildTrie payload).leaves = max 2 (occurring payload).length := by
  have h := (buildTrie_values payload).length_eq
  rw [Trie.values_length] at h
  rw [h]
  unfold leafWeights
  split
  · rename_i e; simp [e]
  · rename_i u e; simp [e]
  · rename_i u w rest e; simp [e]

/-- An encoder-built trie fits `NODE` (rule R188). -/
theorem buildTrie_leaves_le (payload : List Byte) : (buildTrie payload).leaves ≤ 256 := by
  rw [buildTrie_leaves]
  have := occurring_length_le payload
  omega

/-! ## Reading and descending -/

/-- What `ReadTrie` makes of a serialized trie that fits `NODE`: the same trie, and exactly its bits are consumed. -/
theorem readTrie_serialize (t : Trie) {fuel ntop : Nat} {r : Reader} {rest : List Bool} (h : r.unread = t.serialize ++ rest)
    (hn : ntop + t.size ≤ Config.nodeCap) (hf : Config.nodeCap ≤ ntop + fuel) :
    ∃ r', readTrie fuel ntop r = .got t (ntop + t.size) r' ∧ r'.unread = rest ∧ r'.isOpen = r.isOpen := by
  induction t generalizing fuel ntop r rest with
  | leaf v =>
    obtain ⟨fuel, rfl⟩ : ∃ f, fuel = f + 1 := ⟨fuel - 1, by simp [Trie.size] at hn; omega⟩
    have hne : ntop ≠ Config.nodeCap := by simp [Trie.size] at hn; omega
    obtain ⟨r1, h1, h2, h3⟩ := Reader.readBit_got (r := r) (by simpa [Trie.serialize] using h)
    have hb : bitsMsb v 8 = bitsMsb (v.setWidth 32) 8 := bitsMsb_congr fun j hj => by
      have : j < 32 := by omega
      simp [this]
    rw [hb] at h2
    obtain ⟨r2, h4, h5, h6⟩ := Reader.readBits_of_bits h2 (by decide) (by simp; omega)
    refine ⟨r2, ?_, h5, by rw [h6, h3]⟩
    simp [readTrie, hne, h1, h4, Trie.size]
  | node l rt ihl ihr =>
    have hs : (Trie.node l rt).size = 1 + l.size + rt.size := rfl
    obtain ⟨fuel, rfl⟩ : ∃ f, fuel = f + 1 := ⟨fuel - 1, by omega⟩
    have hne : ntop ≠ Config.nodeCap := by omega
    obtain ⟨r1, h1, h2, h3⟩ := Reader.readBit_got (r := r) (b := false) (rest := l.serialize ++ (rt.serialize ++ rest))
      (by simpa [Trie.serialize] using h)
    obtain ⟨r2, h4, h5, h6⟩ := ihl (fuel := fuel) (ntop := ntop + 1) h2 (by omega) (by omega)
    obtain ⟨r3, h7, h8, h9⟩ := ihr (fuel := fuel) (ntop := ntop + 1 + l.size) h5 (by omega) (by omega)
    refine ⟨r3, ?_, h8, by rw [h9, h6, h3]⟩
    have e : ntop + (Trie.node l rt).size = ntop + 1 + l.size + rt.size := by omega
    simp [readTrie, hne, h1, h4, h7, e]

/-- With `NODE` full no bit is read (rule R222). -/
theorem readTrie_full (fuel : Nat) (r : Reader) : readTrie fuel Config.nodeCap r = .overflow r := by
  cases fuel <;> simp [readTrie]

/-- What `ReadTrie` makes of the nodes of a trie with more than `NODE` has room for: the overflow, once exactly the nodes that fit have
been read. -/
theorem readTrie_overflow (t : Trie) {fuel ntop : Nat} {r : Reader} {rest : List Bool} (hn : ntop ≤ Config.nodeCap)
    (hs : Config.nodeCap < ntop + t.size) (h : r.unread = t.firstBits (Config.nodeCap - ntop) ++ rest)
    (hf : Config.nodeCap ≤ ntop + fuel) :
    ∃ r', readTrie fuel ntop r = .overflow r' ∧ r'.unread = rest ∧ r'.isOpen = r.isOpen := by
  induction t generalizing fuel ntop r rest with
  | leaf v =>
    obtain rfl : ntop = Config.nodeCap := by simp [Trie.size] at hs; omega
    exact ⟨r, readTrie_full fuel r, by simpa using h, rfl⟩
  | node l rt ihl ihr =>
    by_cases hfull : ntop = Config.nodeCap
    · subst hfull
      exact ⟨r, readTrie_full fuel r, by simpa using h, rfl⟩
    have hsize : (Trie.node l rt).size = 1 + l.size + rt.size := rfl
    obtain ⟨fuel, rfl⟩ : ∃ f, fuel = f + 1 := ⟨fuel - 1, by omega⟩
    have hk : Config.nodeCap - ntop = Config.nodeCap - (ntop + 1) + 1 := by omega
    rw [hk, Trie.firstBits_node] at h
    obtain ⟨r1, h1, h2, h3⟩ := Reader.readBit_got (r := r) (b := false) (by simpa using h)
    by_cases hl : ntop + 1 + l.size ≤ Config.nodeCap
    · rw [Trie.firstBits_of_size_le (by omega)] at h2
      obtain ⟨r2, h4, h5, h6⟩ := readTrie_serialize l (fuel := fuel) h2 hl (by omega)
      obtain ⟨r3, h7, h8, h9⟩ := ihr (fuel := fuel) hl (by omega) (by rw [Nat.sub_add_eq]; exact h5) (by omega)
      exact ⟨r3, by simp [readTrie, hfull, h1, h4, h7], h8, by rw [h9, h6, h3]⟩
    · have hz : Config.nodeCap - (ntop + 1) - l.size = 0 := by omega
      obtain ⟨r2, h4, h5, h6⟩ := ihl (fuel := fuel) (ntop := ntop + 1) (r := r1) (rest := rest) (by omega) (by omega)
        (by simpa [hz] using h2) (by omega)
      exact ⟨r2, by simp [readTrie, hfull, h1, h4], h5, by rw [h6, h3]⟩

/-- What `ReadTrie` makes of an input that ends inside a trie, or inside the nodes of it that fit: it ends, with no bit left. -/
theorem readTrie_ended (t : Trie) {fuel ntop : Nat} {r : Reader} {missing : List Bool} (hm : missing ≠ [])
    (hn : ntop ≤ Config.nodeCap) (h : r.unread ++ missing = t.firstBits (Config.nodeCap - ntop))
    (hf : Config.nodeCap ≤ ntop + fuel) :
    ∃ r', readTrie fuel ntop r = .ended r' ∧ r'.unread = [] ∧ r'.isOpen = r.isOpen := by
  induction t generalizing fuel ntop r missing with
  | leaf v =>
    have hfull : ntop ≠ Config.nodeCap := by rintro rfl; simp [hm] at h
    obtain ⟨fuel, rfl⟩ : ∃ f, fuel = f + 1 := ⟨fuel - 1, by omega⟩
    have hk : Config.nodeCap - ntop = Config.nodeCap - (ntop + 1) + 1 := by omega
    rw [hk, Trie.firstBits_leaf] at h
    cases hu : r.unread with
    | nil => exact ⟨r, by simp [readTrie, hfull, Reader.readBit_ended hu], hu, rfl⟩
    | cons b bits =>
      rw [hu, List.cons_append, List.cons.injEq] at h
      obtain ⟨rfl, hb⟩ := h
      obtain ⟨r1, h1, h2, h3⟩ := Reader.readBit_got hu
      have hlen := congrArg List.length hb
      have hpos := List.length_pos_iff.mpr hm
      rw [List.length_append, bitsMsb_length] at hlen
      obtain ⟨r2, h4, h5, h6⟩ := Reader.readBits_ended (r := r1) (n := 8) (by rw [h2]; omega)
      exact ⟨r2, by simp [readTrie, hfull, h1, h4], h5, by rw [h6, h3]⟩
  | node l rt ihl ihr =>
    have hfull : ntop ≠ Config.nodeCap := by rintro rfl; simp [hm] at h
    obtain ⟨fuel, rfl⟩ : ∃ f, fuel = f + 1 := ⟨fuel - 1, by omega⟩
    have hk : Config.nodeCap - ntop = Config.nodeCap - (ntop + 1) + 1 := by omega
    rw [hk, Trie.firstBits_node] at h
    cases hu : r.unread with
    | nil => exact ⟨r, by simp [readTrie, hfull, Reader.readBit_ended hu], hu, rfl⟩
    | cons b bits =>
      rw [hu, List.cons_append, List.cons.injEq] at h
      obtain ⟨rfl, hb⟩ := h
      obtain ⟨r1, h1, h2, h3⟩ := Reader.readBit_got hu
      -- the input ends inside the left child, or it holds the left child and ends inside the right one
      have ends : (∃ m, m ≠ [] ∧ bits ++ m = l.firstBits (Config.nodeCap - (ntop + 1))) ∨
          ∃ c, bits = l.firstBits (Config.nodeCap - (ntop + 1)) ++ c ∧
            c ++ missing = rt.firstBits (Config.nodeCap - (ntop + 1) - l.size) := by
        rcases List.append_eq_append_iff.mp hb with ⟨m, hl, hr⟩ | ⟨c, hl, hr⟩
        · by_cases hm0 : m = []
          · exact .inr ⟨[], by simpa [hm0] using hl.symm, by simpa [hm0] using hr⟩
          · exact .inl ⟨m, hm0, hl.symm⟩
        · exact .inr ⟨c, hl, hr.symm⟩
      rcases ends with ⟨m, hm0, hl⟩ | ⟨c, hl, hr⟩
      · obtain ⟨r2, h4, h5, h6⟩ := ihl (fuel := fuel) (ntop := ntop + 1) (r := r1) hm0 (by omega) (by rw [h2]; exact hl) (by omega)
        exact ⟨r2, by simp [readTrie, hfull, h1, h4], h5, by rw [h6, h3]⟩
      · have hfit : ntop + 1 + l.size ≤ Config.nodeCap := by
          apply Nat.le_of_not_lt
          intro hlt
          have hz : Config.nodeCap - (ntop + 1) - l.size = 0 := by omega
          simp [hz, hm] at hr
        rw [Trie.firstBits_of_size_le (by omega)] at hl
        obtain ⟨r2, h4, h5, h6⟩ := readTrie_serialize l (fuel := fuel) (h2.trans hl) hfit (by omega)
        obtain ⟨r3, h7, h8, h9⟩ := ihr (fuel := fuel) hm hfit (by rw [Nat.sub_add_eq, h5]; exact hr) (by omega)
        exact ⟨r3, by simp [readTrie, hfull, h1, h4, h7], h8, by rw [h9, h6, h3]⟩

/-- What a descent makes of a leaf's code: that leaf's value, and exactly the code is consumed. -/
theorem decodeOne_code {t : Trie} {v : Byte} {p : List Bool} (hp : (v, p) ∈ t.walk []) {r : Reader} {rest : List Bool}
    (h : r.unread = p ++ rest) : ∃ r', decodeOne t r = .got v r' ∧ r'.unread = rest ∧ r'.isOpen = r.isOpen := by
  induction t generalizing p r with
  | leaf u =>
    simp only [Trie.walk, List.mem_singleton, Prod.mk.injEq] at hp
    obtain ⟨rfl, rfl⟩ := hp
    exact ⟨r, rfl, h, rfl⟩
  | node l rt ihl ihr =>
    rcases Trie.mem_walk_node.mp hp with ⟨q, rfl, hq⟩ | ⟨q, rfl, hq⟩
    · obtain ⟨r1, h1, h2, h3⟩ := Reader.readBit_got (r := r) h
      obtain ⟨r2, h4, h5, h6⟩ := ihl hq h2
      exact ⟨r2, by simp [decodeOne, h1, h4], h5, by rw [h6, h3]⟩
    · obtain ⟨r1, h1, h2, h3⟩ := Reader.readBit_got (r := r) h
      obtain ⟨r2, h4, h5, h6⟩ := ihr hq h2
      exact ⟨r2, by simp [decodeOne, h1, h4], h5, by rw [h6, h3]⟩

/-- What `DecodeSymbols` makes of a run of codes: their values go to `DOUT` and are counted. -/
theorem decodeSymbols_codes {t : Trie} (symbols : List (Byte × List Bool)) (hs : ∀ c ∈ symbols, c ∈ t.walk []) {r : Reader}
    {rest : List Bool} (dout : List Byte) (dcount : Word) (h : r.unread = symbols.flatMap Prod.snd ++ rest) :
    ∃ r', decodeSymbols t symbols.length r dout dcount =
        ⟨r', dout ++ symbols.map Prod.fst, dcount + BitVec.ofNat 32 symbols.length, true⟩ ∧
      r'.unread = rest ∧ r'.isOpen = r.isOpen := by
  induction symbols generalizing r dout dcount with
  | nil => exact ⟨r, by simp [decodeSymbols], by simpa using h, rfl⟩
  | cons c symbols ih =>
    obtain ⟨v, p⟩ := c
    obtain ⟨r1, h1, h2, h3⟩ := decodeOne_code (hs (v, p) (by simp)) (r := r) (rest := symbols.flatMap Prod.snd ++ rest)
      (by simpa using h)
    obtain ⟨r2, h4, h5, h6⟩ := ih (fun c hc => hs c (by simp [hc])) (dout ++ [v]) (dcount + 1#32) h2
    refine ⟨r2, ?_, h5, by rw [h6, h3]⟩
    have e : dcount + 1#32 + BitVec.ofNat 32 symbols.length = dcount + BitVec.ofNat 32 (symbols.length + 1) := by
      rw [BitVec.add_assoc, BitVec.ofNat_add, BitVec.add_comm 1#32]
    simp only [List.length_cons, decodeSymbols, h1, h4, List.map_cons, e, List.append_assoc, List.cons_append, List.nil_append]

/-- What a descent makes of an input that ends inside a leaf's code: it ends, with no bit left. -/
theorem decodeOne_ended {t : Trie} {v : Byte} {p part : List Bool} (hp : (v, p) ∈ t.walk []) (hpre : part <+: p) (hne : part ≠ p)
    {r : Reader} (h : r.unread = part) : ∃ r', decodeOne t r = .ended r' ∧ r'.unread = [] ∧ r'.isOpen = r.isOpen := by
  induction t generalizing p part r with
  | leaf u =>
    simp only [Trie.walk, List.mem_singleton, Prod.mk.injEq] at hp
    obtain ⟨rfl, rfl⟩ := hp
    exact absurd (List.prefix_nil.mp hpre) hne
  | node l rt ihl ihr =>
    cases part with
    | nil => exact ⟨r, by simp [decodeOne, Reader.readBit_ended h], h, rfl⟩
    | cons b part =>
      obtain ⟨r1, h1, h2, h3⟩ := Reader.readBit_got h
      rcases Trie.mem_walk_node.mp hp with ⟨q, rfl, hq⟩ | ⟨q, rfl, hq⟩ <;>
        obtain ⟨rfl, hq2⟩ := List.cons_prefix_cons.mp hpre
      · obtain ⟨r2, h4, h5, h6⟩ := ihl hq hq2 (by simpa using hne) h2
        exact ⟨r2, by simp [decodeOne, h1, h4], h5, by rw [h6, h3]⟩
      · obtain ⟨r2, h4, h5, h6⟩ := ihr hq hq2 (by simpa using hne) h2
        exact ⟨r2, by simp [decodeOne, h1, h4], h5, by rw [h6, h3]⟩

/-- A complete run of symbols goes on where it stopped. -/
theorem decodeSymbols_add {t : Trie} {m : Nat} (n : Nat) {r r' : Reader} {dout dout' : List Byte} {dcount dcount' : Word}
    (h : decodeSymbols t m r dout dcount = ⟨r', dout', dcount', true⟩) :
    decodeSymbols t (m + n) r dout dcount = decodeSymbols t n r' dout' dcount' := by
  induction m generalizing r dout dcount with
  | zero => cases h; simp
  | succ m ih =>
    rw [Nat.succ_add]
    simp only [decodeSymbols] at h ⊢
    cases h1 : decodeOne t r with
    | ended r1 => rw [h1] at h; simp at h
    | got v r1 => rw [h1] at h; exact ih h

/-- What `DecodeSymbols` makes of an input that ends inside a code: the symbols before it are emitted and counted, and no bit is left. -/
theorem decodeSymbols_ended {t : Trie} {n : Nat} (symbols : List (Byte × List Bool)) (hs : ∀ c ∈ symbols, c ∈ t.walk [])
    (hn : symbols.length < n) {v : Byte} {p part : List Bool} (hp : (v, p) ∈ t.walk []) (hpre : part <+: p) (hne : part ≠ p)
    {r : Reader} (dout : List Byte) (dcount : Word) (h : r.unread = symbols.flatMap Prod.snd ++ part) :
    ∃ r', decodeSymbols t n r dout dcount =
        ⟨r', dout ++ symbols.map Prod.fst, dcount + BitVec.ofNat 32 symbols.length, false⟩ ∧
      r'.unread = [] ∧ r'.isOpen = r.isOpen := by
  obtain ⟨k, rfl⟩ : ∃ k, n = symbols.length + (k + 1) := ⟨n - symbols.length - 1, by omega⟩
  obtain ⟨r1, h1, h2, h3⟩ := decodeSymbols_codes symbols hs dout dcount h
  obtain ⟨r2, h4, h5, h6⟩ := decodeOne_ended hp hpre hne h2
  exact ⟨r2, by rw [decodeSymbols_add (k + 1) h1]; simp [decodeSymbols, h4], h5, by rw [h6, h3]⟩

/-! ## What the reads of `DECODE` consume -/

/-- What a trie read may leave of `r`. -/
def TrieReading.From (x : TrieReading) (r : Reader) : Prop :=
  match x with
  | .got _ _ r' => r.Consumes r'
  | .ended r' => r.Consumes r' ∧ r'.unread = []
  | .overflow r' => r.Consumes r'

/-- Everything `ReadTrie` does to the reader. -/
theorem readTrie_from (fuel ntop : Nat) (r : Reader) : (readTrie fuel ntop r).From r := by
  induction fuel generalizing ntop r with
  | zero => exact .refl r
  | succ fuel ih =>
    unfold readTrie
    split
    · exact .refl r
    cases h : r.readBit with
    | ended r1 =>
      obtain ⟨rfl, hu⟩ := Reader.readBit_ended_eq h
      exact ⟨.refl _, hu⟩
    | got b r1 =>
      have h1 := Reader.readBit_consumes h
      cases b with
      | true =>
        have h2 := r1.readBits_from 8
        simp only
        cases h3 : r1.readBits 8 with
        | ended r2 => rw [h3] at h2; exact ⟨h1.trans h2.1, h2.2⟩
        | got v r2 => rw [h3] at h2; exact h1.trans h2
      | false =>
        have h2 := ih (ntop + 1) r1
        simp only
        cases h3 : readTrie fuel (ntop + 1) r1 with
        | ended r2 => rw [h3] at h2; exact ⟨h1.trans h2.1, h2.2⟩
        | overflow r2 => rw [h3] at h2; exact h1.trans h2
        | got left ntop2 r2 =>
          rw [h3] at h2
          have h4 := ih ntop2 r2
          simp only
          cases h5 : readTrie fuel ntop2 r2 with
          | ended r3 => rw [h5] at h4; exact ⟨(h1.trans h2).trans h4.1, h4.2⟩
          | overflow r3 => rw [h5] at h4; exact (h1.trans h2).trans h4
          | got right ntop3 r3 => rw [h5] at h4; exact (h1.trans h2).trans h4

/-- Everything `DecodeOne` does to the reader. -/
theorem decodeOne_from (t : Trie) (r : Reader) : (decodeOne t r).From r := by
  induction t generalizing r with
  | leaf v => exact .refl r
  | node left right ihl ihr =>
    unfold decodeOne
    cases h : r.readBit with
    | ended r1 =>
      obtain ⟨rfl, hu⟩ := Reader.readBit_ended_eq h
      exact ⟨.refl _, hu⟩
    | got b r1 =>
      have h1 := Reader.readBit_consumes h
      have go (t : Trie) (h2 : (decodeOne t r1).From r1) : (decodeOne t r1).From r := by
        cases h3 : decodeOne t r1 with
        | ended r2 => rw [h3] at h2; exact ⟨h1.trans h2.1, h2.2⟩
        | got v r2 => rw [h3] at h2; exact h1.trans h2
      cases b with
      | true => exact go right (ihr r1)
      | false => exact go left (ihl r1)

/-- Everything `DecodeSymbols` does: it consumes, it emits and counts at most `n` symbols, all `n` when it completes, and where it does
not complete no bit is left. -/
theorem decodeSymbols_effect (t : Trie) (n : Nat) (r : Reader) (dout : List Byte) (dcount : Word) :
    let run := decodeSymbols t n r dout dcount
    r.Consumes run.reader ∧ (run.complete = false → run.reader.unread = []) ∧
    ∃ symbols : List Byte, run.dout = dout ++ symbols ∧ run.dcount = dcount + BitVec.ofNat 32 symbols.length ∧
      symbols.length ≤ n ∧ (run.complete = true → symbols.length = n) := by
  induction n generalizing r dout dcount with
  | zero => exact ⟨.refl _, by simp [decodeSymbols], [], by simp [decodeSymbols], by simp [decodeSymbols], by simp, by simp⟩
  | succ n ih =>
    unfold decodeSymbols
    have h1 := decodeOne_from t r
    cases h : decodeOne t r with
    | ended r1 => rw [h] at h1; exact ⟨h1.1, fun _ => h1.2, [], by simp, by simp, by simp, by simp⟩
    | got v r1 =>
      rw [h] at h1
      obtain ⟨g1, g2, symbols, g3, g4, g5, g6⟩ := ih r1 (dout ++ [v]) (dcount + 1#32)
      refine ⟨h1.trans g1, g2, v :: symbols, by simp [g3], ?_, by simpa using g5, fun hc => by simpa using g6 hc⟩
      simp only [g4, List.length_cons]
      rw [BitVec.add_assoc, BitVec.ofNat_add, BitVec.add_comm 1#32]

end Sys2Proof.Machine
end

