-- ==== Sys2Proof/Laws/Writer.lean ====
section
/-! SUPPORT. Laws of the bit writer: each primitive appends bits and keeps the writer's invariant. -/

namespace Sys2Proof.Machine

/-- Everything `WriteBit` does to the bit string: it appends the bit. -/
theorem Writer.written_writeBit {w : Writer} (b : Bool) (h : w.count ≤ 7) : (w.writeBit b).written = w.written ++ [b] := by
  have hb := bitsMsb_shiftIn w.buf b w.count (by omega)
  unfold Writer.writeBit Writer.written
  split
  · rename_i h8
    rw [h8] at hb
    simp [hb]
  · simp [hb]

theorem Writer.writeBit_count {w : Writer} (b : Bool) (h : w.count ≤ 7) :
    (w.writeBit b).count = (w.count + 1) % 8 := by
  unfold Writer.writeBit
  split
  · rename_i h8; simp [h8]
  · simp only; omega

@[simp] theorem Writer.writeBit_isOpen (w : Writer) (b : Bool) : (w.writeBit b).isOpen = w.isOpen := by
  unfold Writer.writeBit; split <;> rfl

/-- `WriteBit` never takes an emitted byte back. -/
theorem Writer.writeBit_out (w : Writer) (b : Bool) : w.out <+: (w.writeBit b).out := by
  unfold Writer.writeBit; split <;> simp

/-- Rule R40's bound on `W.buf` is kept. -/
theorem Writer.writeBit_buf_lt {w : Writer} (b : Bool) (h : w.count ≤ 7) (hb : w.buf.toNat < 2 ^ w.count) :
    (w.writeBit b).buf.toNat < 2 ^ (w.writeBit b).count := by
  unfold Writer.writeBit
  split
  · simp
  · rename_i h8
    have hlt : w.count + 1 ≤ 7 := by omega
    have hp : 2 ^ (w.count + 1) ≤ 2 ^ 7 := Nat.pow_le_pow_right (by decide) hlt
    have hp2 : 2 ^ (w.count + 1) = 2 * 2 ^ w.count := by rw [Nat.pow_succ]; omega
    have h1 : (w.buf <<< 1).toNat < 2 ^ (w.count + 1) := by
      rw [BitVec.toNat_shiftLeft, Nat.shiftLeft_eq]
      exact Nat.lt_of_le_of_lt (Nat.mod_le _ _) (by omega)
    have h2 : ((BitVec.ofBool b).setWidth 8).toNat < 2 ^ (w.count + 1) := by
      have : 1 ≤ 2 ^ w.count := Nat.one_le_two_pow
      cases b <;> simp
    simpa using Nat.or_lt_two_pow h1 h2

theorem Writer.Inv.writeBit {w : Writer} (h : w.Inv) (ho : w.isOpen = true) (b : Bool) : (w.writeBit b).Inv where
  count_le := by rw [Writer.writeBit_count b h.count_le]; omega
  buf_lt := Writer.writeBit_buf_lt b h.count_le h.buf_lt
  closed_aligned := by simp [ho]

@[simp] theorem Writer.writeAll_nil (w : Writer) : w.writeAll [] = w := rfl

@[simp] theorem Writer.writeAll_cons (w : Writer) (b : Bool) (bs : List Bool) :
    w.writeAll (b :: bs) = (w.writeBit b).writeAll bs := rfl

theorem Writer.writeAll_append (w : Writer) (xs ys : List Bool) : w.writeAll (xs ++ ys) = (w.writeAll xs).writeAll ys := by
  simp [Writer.writeAll]

@[simp] theorem Writer.writeAll_isOpen (w : Writer) (bs : List Bool) : (w.writeAll bs).isOpen = w.isOpen := by
  induction bs generalizing w with
  | nil => rfl
  | cons b bs ih => simp [ih]

theorem Writer.writeAll_out (w : Writer) (bs : List Bool) : w.out <+: (w.writeAll bs).out := by
  induction bs generalizing w with
  | nil => exact List.prefix_refl _
  | cons b bs ih => exact (w.writeBit_out b).trans (ih _)

theorem Writer.writeAll_count {w : Writer} (bs : List Bool) (h : w.count ≤ 7) :
    (w.writeAll bs).count = (w.count + bs.length) % 8 := by
  induction bs generalizing w with
  | nil => simp; omega
  | cons b bs ih =>
    have hc := Writer.writeBit_count b h
    rw [Writer.writeAll_cons, ih (by omega), hc]
    simp; omega

/-- Everything a run of writes does to the bit string: it appends the bits, in order. -/
theorem Writer.written_writeAll {w : Writer} (bs : List Bool) (h : w.count ≤ 7) :
    (w.writeAll bs).written = w.written ++ bs := by
  induction bs generalizing w with
  | nil => simp
  | cons b bs ih =>
    have hc := Writer.writeBit_count b h
    rw [Writer.writeAll_cons, ih (by omega), Writer.written_writeBit b h]
    simp

theorem Writer.Inv.writeAll {w : Writer} (h : w.Inv) (ho : w.isOpen = true) (bs : List Bool) : (w.writeAll bs).Inv := by
  induction bs generalizing w with
  | nil => exact h
  | cons b bs ih => exact ih (h.writeBit ho b) (by simp [ho])

/-- An aligned writer is unchanged by a flush; any other is padded with zero bits to the byte boundary. -/
theorem Writer.written_flushPad {w : Writer} (h : w.count ≤ 7) :
    w.flushPad.written = w.written ++ List.replicate ((8 - w.count) % 8) false := by
  unfold Writer.flushPad
  split
  · rename_i h0
    have hm : (8 - w.count) % 8 = 8 - w.count := Nat.mod_eq_of_lt (by omega)
    rw [hm]
    simp only [Writer.written, byteBits_append, byteBits_cons, byteBits_nil, bitsMsb_zero, List.append_nil,
      List.append_assoc, List.append_cancel_left_eq]
    apply List.ext_getElem
    · simp; omega
    · intro k h1 h2
      have hk : k < 8 := by simpa using h1
      rw [bitsMsb_getElem, List.getElem_append]
      split
      · rename_i hkc
        have hkc : k < w.count := by simpa using hkc
        rw [bitsMsb_getElem, BitVec.getLsbD_shiftLeft]
        have e : 8 - 1 - k - (8 - w.count) = w.count - 1 - k := by omega
        have a : 8 - 1 - k < 8 := by omega
        have c : ¬ 8 - 1 - k < 8 - w.count := by omega
        simp only [a, c, decide_true, decide_false, Bool.not_false, Bool.true_and, e]
      · rename_i hkc
        have hkc : ¬ k < w.count := by simpa using hkc
        rw [BitVec.getLsbD_shiftLeft]
        have c : 8 - 1 - k < 8 - w.count := by omega
        simp [c]
  · rename_i h0
    have : w.count = 0 := by omega
    simp [this]

theorem Writer.flushPad_count (w : Writer) : w.flushPad.count = 0 := by
  unfold Writer.flushPad
  split
  · rfl
  · omega

@[simp] theorem Writer.flushPad_isOpen (w : Writer) : w.flushPad.isOpen = w.isOpen := by
  unfold Writer.flushPad; split <;> rfl

theorem Writer.flushPad_out (w : Writer) : w.out <+: w.flushPad.out := by
  unfold Writer.flushPad; split <;> simp

theorem Writer.Inv.flushPad_buf {w : Writer} (h : w.Inv) : w.flushPad.buf = 0#8 := by
  unfold Writer.flushPad
  split
  · rfl
  · have h0 : w.count = 0 := by omega
    have := h.buf_lt
    rw [h0] at this
    exact BitVec.eq_of_toNat_eq (by simp; omega)

theorem Writer.Inv.flushPad {w : Writer} (h : w.Inv) : w.flushPad.Inv where
  count_le := by simp [Writer.flushPad_count]
  buf_lt := by simp [Writer.flushPad_count, h.flushPad_buf]
  closed_aligned _ := w.flushPad_count

theorem Writer.closed_inv : Writer.closed.Inv := ⟨by decide, by decide, by decide⟩

/-- `WriteBits` is a run of `WriteBit`s.  Rewrite with it rather than unfold: evaluating a run of writes is slow. -/
theorem Writer.writeBits_eq {k : Nat} (w : Writer) (v : BitVec k) (n : Nat) : w.writeBits v n = w.writeAll (bitsMsb v n) := rfl

end Sys2Proof.Machine
end

