-- ==== Sys2Proof/Laws/Command.lean ====
section
/-! SUPPORT. What each of the larger operations can do, said once: a read command, `ENCODE`, `DECODE`, a host read and a host write. -/

namespace Sys2Proof.Machine

/-- A fault recorded where none was: the record, and nothing else. -/
theorem State.raise_of_no_fault {s : State} (h : s.fault = false) (code : FaultCode) (opc : Byte) (phase : Phase) :
    s.raise code opc phase = { s with fault := true, err := ⟨code, opc, phase⟩ } := by
  simp [State.raise, h]

/-- A fault raised while one is recorded changes nothing. -/
theorem State.raise_of_fault {s : State} (h : s.fault = true) (code : FaultCode) (opc : Byte) (phase : Phase) :
    s.raise code opc phase = s := by
  simp [State.raise, h]

/-- Everything the end of a read command can do: the reader has consumed, and either `RESULT` has the value, or the input ended, the
fault is raised and no bit is left. -/
theorem State.finishRead_effect {s t : State} {opc : Byte} {n : Nat} (h : s.finishRead opc (s.reader.readBits n) = .next t) :
    ∃ r, s.reader.Consumes r ∧
      ((∃ v, t = { s with reader := r, result := v }) ∨
        (t = ({ s with reader := r } : State).raise .streamExhausted opc .none ∧ r.unread = [])) := by
  have h1 := s.reader.readBits_from n
  unfold State.finishRead at h
  cases hr : s.reader.readBits n with
  | ended r => rw [hr] at h h1; cases h; exact ⟨r, h1.1, .inr ⟨rfl, h1.2⟩⟩
  | got v r => rw [hr] at h h1; cases h; exact ⟨r, h1, .inl ⟨v, rfl⟩⟩

/-- Everything `ENCODE` does once its two checks pass. -/
theorem execEncode_eq {s : State} (h : s.writer.isOpen = true) (hl : s.arg.toNat ≤ s.payloadCap.toNat) :
    execEncode s = .next { s with
      writer := s.writer.writeAll (payloadBits (buildTrie (s.payload s.arg.toNat)) s.arg (s.payload s.arg.toNat))
      result := BitVec.ofNat 32 (buildTrie (s.payload s.arg.toNat)).leaves
      undefDraws := s.undefDrawsAfter (s.payloadWritten s.arg.toNat)
      workDraws := s.workDraws + 1 } := by
  have : ¬ s.payloadCap < s.arg := by rw [BitVec.lt_def]; omega
  simp [execEncode, h, this]

/-- Everything `DECODE` can do.  On a closed reader it faults at once.  On an open one the reader consumes, and some symbols are emitted and
counted; it then either completes, or raises one of the two faults in some phase. -/
theorem execDecode_effect {s t : State} (h : execDecode s = .next t) :
    (s.reader.isOpen = false ∧ t = s.raise .notOpen opDECODE .none) ∨
    (s.reader.isOpen = true ∧ ∃ (r : Reader) (symbols : List Byte), s.reader.Consumes r ∧ symbols.length < 2 ^ 32 ∧
      (t = { s with
          reader := r, dout := s.dout ++ symbols, dcount := BitVec.ofNat 32 symbols.length
          result := BitVec.ofNat 32 symbols.length, workDraws := s.workDraws + 1 } ∨
        ∃ code phase,
          t = ({ s with
            reader := r, dout := s.dout ++ symbols, dcount := BitVec.ofNat 32 symbols.length
            workDraws := s.workDraws + 1 } : State).raise code opDECODE phase ∧
          phase ≠ .none ∧ (phase ≠ .symbols → symbols = []) ∧
          ((code = .corruptStream ∧ r.unread = []) ∨ (code = .trieOverflow ∧ phase = .trie)))) := by
  unfold execDecode at h
  cases ho : s.reader.isOpen with
  | false => left; simp [ho, faulted] at h; exact ⟨rfl, h.symm⟩
  | true =>
    right
    refine ⟨rfl, ?_⟩
    simp only [ho, Bool.not_true, Bool.false_eq_true, if_false, decodePhaseTrie] at h
    have h1 := readTrie_from Config.nodeCap 0 s.reader
    cases ht : readTrie Config.nodeCap 0 s.reader with
    | ended r =>
      rw [ht] at h1 h; cases h
      exact ⟨r, [], h1.1, by simp, .inr ⟨.corruptStream, .trie, by simp, by simp, by simp, .inl ⟨rfl, h1.2⟩⟩⟩
    | overflow r =>
      rw [ht] at h1 h; cases h
      exact ⟨r, [], h1, by simp, .inr ⟨.trieOverflow, .trie, by simp, by simp, by simp, .inr ⟨rfl, rfl⟩⟩⟩
    | got root ntop r =>
      rw [ht] at h1 h
      simp only [decodePhaseLength] at h
      have h2 := r.readBits_from 32
      cases hn : r.readBits 32 with
      | ended r2 =>
        rw [hn] at h2 h; cases h
        exact ⟨r2, [], h1.trans h2.1, by simp, .inr ⟨.corruptStream, .length, by simp, by simp, by simp, .inl ⟨rfl, h2.2⟩⟩⟩
      | got n r2 =>
        rw [hn] at h2 h
        simp only [decodePhaseSymbols] at h
        obtain ⟨g1, g2, symbols, g3, g4, g5, g6⟩ := decodeSymbols_effect root n.toNat r2 s.dout 0#32
        have hlt : symbols.length < 2 ^ 32 := Nat.lt_of_le_of_lt g5 n.isLt
        generalize decodeSymbols root n.toNat r2 s.dout 0#32 = run at *
        obtain ⟨r3, dout, dcount, complete⟩ := run
        simp only at *
        subst g3
        have g4' : dcount = BitVec.ofNat 32 symbols.length := by rw [g4]; simp
        subst g4'
        refine ⟨r3, symbols, (h1.trans h2).trans g1, hlt, ?_⟩
        cases complete with
        | true =>
          left; cases h
          have : n = BitVec.ofNat 32 symbols.length := by rw [g6 rfl]; simp
          rw [this]
        | false =>
          right; cases h
          exact ⟨.corruptStream, .symbols, rfl, by simp, by simp, .inl ⟨rfl, g2 rfl⟩⟩

/-- A step that reads a register while no command runs. -/
theorem step_read {s : State} {width offset : Nat} {rest : List HostAction} {reg : Register} (hb : s.busy = false)
    (hp : s.pending = .read width offset :: rest) (hr : accessTarget width offset = some reg) :
    step s = .next (hostRead { s with pending := rest } reg) := by
  simp [step, stepHost, hp, perform, hr, hb]

/-- A step that writes a register while no command runs. -/
theorem step_write {s : State} {width offset : Nat} {data : Word} {stream : List Byte} {rest : List HostAction} {reg : Register}
    (hb : s.busy = false) (hp : s.pending = .write width offset data stream :: rest) (hr : accessTarget width offset = some reg) :
    step s = hostWrite { s with pending := rest } reg data stream := by
  simp [step, stepHost, hp, perform, hr, hb]

end Sys2Proof.Machine
end

