-- ==== Sys2Proof/Laws/PerInstr.lean ====
section
/-! SUPPORT. What holds of every command as syntax, one lemma a constructor. -/

namespace Sys2Proof.Laws

/-- The word of a command agrees with its row of 30_encoding.md rule R94: under `MASK` it is `MATCH`, the bare opcode. -/
def FormatMatch.Statement (i : Instr) : Prop := encode i &&& i.mask = i.opcode.setWidth 32

theorem FormatMatch.nop : FormatMatch.Statement .nop := by unfold FormatMatch.Statement; decide
theorem FormatMatch.srst : FormatMatch.Statement .srst := by unfold FormatMatch.Statement; decide
theorem FormatMatch.wopen : FormatMatch.Statement .wopen := by unfold FormatMatch.Statement; decide

theorem FormatMatch.wbit (b : Bool) : FormatMatch.Statement (.wbit b) := by
  unfold FormatMatch.Statement
  cases b <;> decide

theorem FormatMatch.wbyte (v : Byte) : FormatMatch.Statement (.wbyte v) := by
  unfold FormatMatch.Statement
  apply BitVec.eq_of_getLsbD_eq
  intro k hk
  simp only [encode, Instr.operandBits, Instr.mask, Instr.opcode, opWBYTE]
  interval_cases k <;> simp

theorem FormatMatch.wchar (V : BitVec 16) (W : BitVec 5) : FormatMatch.Statement (.wchar V W) := by
  unfold FormatMatch.Statement
  apply BitVec.eq_of_getLsbD_eq
  intro k hk
  simp only [encode, Instr.operandBits, Instr.mask, Instr.opcode, opWCHAR]
  interval_cases k <;> simp

theorem FormatMatch.wint : FormatMatch.Statement .wint := by unfold FormatMatch.Statement; decide
theorem FormatMatch.wflush : FormatMatch.Statement .wflush := by unfold FormatMatch.Statement; decide
theorem FormatMatch.wclose : FormatMatch.Statement .wclose := by unfold FormatMatch.Statement; decide
theorem FormatMatch.ropen : FormatMatch.Statement .ropen := by unfold FormatMatch.Statement; decide
theorem FormatMatch.rbit : FormatMatch.Statement .rbit := by unfold FormatMatch.Statement; decide
theorem FormatMatch.rbyte : FormatMatch.Statement .rbyte := by unfold FormatMatch.Statement; decide
theorem FormatMatch.rint : FormatMatch.Statement .rint := by unfold FormatMatch.Statement; decide
theorem FormatMatch.ravail : FormatMatch.Statement .ravail := by unfold FormatMatch.Statement; decide
theorem FormatMatch.rclose : FormatMatch.Statement .rclose := by unfold FormatMatch.Statement; decide
theorem FormatMatch.encode : FormatMatch.Statement .encode := by unfold FormatMatch.Statement; decide
theorem FormatMatch.decode : FormatMatch.Statement .decode := by unfold FormatMatch.Statement; decide

end Sys2Proof.Laws
end

