-- ==== Sys2Proof/Tests/Slice0.lean ====
section
/-! SUPPORT. Tests: words and results taken from the spec's own encodings and test vectors (30_encoding.md rule R100, the examples of
the command rules, 95_test_vectors.md), and for each obligation with hypotheses a state that meets them. -/

namespace Sys2Proof.Tests

open Sys2Proof Sys2Proof.Machine

/-! ## States -/

/-- After reset, with `PAYLOAD_CAP` = 16, the value 95_test_vectors.md uses. -/
def fresh : State := State.resetWith 16#32

/-- An open writer holding `count` bits of a byte. -/
def writing (buf : Byte) (count : Nat) : State := { fresh with writer := ⟨buf, count, true, []⟩ }

/-- An open reader that has taken no byte. -/
def reading (rin : List Byte) : State := { fresh with reader := ⟨0#8, 0, true, rin⟩ }

/-- An open writer, a payload and its length. -/
def loaded (payload : List Byte) : State :=
  { writing 0#8 0 with
    arg := BitVec.ofNat 32 payload.length
    pbuf := (List.range payload.length).zip payload }

/-- A host with one action to come. -/
def queued (a : HostAction) (s : State) : State := { s with pending := [a] }

/-- A recorded `BAD_OPERAND`. -/
def failed (s : State) : State := { s with fault := true, err := ⟨.badOperand, 0x13#8, .none⟩ }

/-- The next state of an outcome. -/
def answer (o : Result) : Option State :=
  match o with
  | .next t => some t
  | .fault _ => none
  | .refused _ => none

/-- The refusal of an outcome. -/
def refusal (o : Result) : Option Refusal :=
  match o with
  | .next _ => none
  | .fault _ => none
  | .refused r => some r

/-- "AAAAABBBCC" (rule R11), T-E1. -/
def payloadE1 : List Byte :=
  [0x41#8, 0x41#8, 0x41#8, 0x41#8, 0x41#8, 0x42#8, 0x42#8, 0x42#8, 0x43#8, 0x43#8]

/-- The stream of T-E1. -/
def streamE1 : List Byte :=
  [0x50#8, 0x54#8, 0x3A#8, 0x10#8, 0x00#8, 0x00#8, 0x00#8, 0x50#8, 0x3F#8, 0xA0#8]

/-! ## Decoding: the words of rule R100, and illegal words of 95_test_vectors.md -/

theorem test_decode_nop : decode 0x00000000#32 = .ok .nop := by decide
theorem test_decode_srst : decode 0x00000001#32 = .ok .srst := by decide
theorem test_decode_wopen : decode 0x00000010#32 = .ok .wopen := by decide
theorem test_decode_wbit_0 : decode 0x00000011#32 = .ok (.wbit false) := by decide
theorem test_decode_wbit_1 : decode 0x00010011#32 = .ok (.wbit true) := by decide
theorem test_decode_wbyte : decode 0x00410012#32 = .ok (.wbyte 0x41#8) := by decide
theorem test_decode_wchar : decode 0x00050313#32 = .ok (.wchar 0x0005#16 3#5) := by decide
theorem test_decode_wchar_widest : decode 0xFFFF1013#32 = .ok (.wchar 0xFFFF#16 16#5) := by decide
theorem test_decode_wint : decode 0x00000014#32 = .ok .wint := by decide
theorem test_decode_wflush : decode 0x00000015#32 = .ok .wflush := by decide
theorem test_decode_wclose : decode 0x00000016#32 = .ok .wclose := by decide
theorem test_decode_ropen : decode 0x00000020#32 = .ok .ropen := by decide
theorem test_decode_rbit : decode 0x00000021#32 = .ok .rbit := by decide
theorem test_decode_rbyte : decode 0x00000022#32 = .ok .rbyte := by decide
theorem test_decode_rint : decode 0x00000023#32 = .ok .rint := by decide
theorem test_decode_ravail : decode 0x00000024#32 = .ok .ravail := by decide
theorem test_decode_rclose : decode 0x00000025#32 = .ok .rclose := by decide
theorem test_decode_encode : decode 0x00000030#32 = .ok .encode := by decide
theorem test_decode_decode : decode 0x00000031#32 = .ok .decode := by decide

/-- T-X1 to T-X6. -/
theorem test_decode_illegal :
    decode 0x00000040#32 = .error (.unassignedOpcode 0x40#8) ∧ decode 0x00020011#32 = .error (.mustBeZero 0x11#8) ∧
    decode 0x00002010#32 = .error (.mustBeZero 0x10#8) ∧ decode 0x01410012#32 = .error (.mustBeZero 0x12#8) ∧
    decode 0x00058313#32 = .error (.mustBeZero 0x13#8) ∧ decode 0x00000100#32 = .error (.mustBeZero 0x00#8) := by decide

/-- A row of the opcode table: bit 16 of the `WBIT` row is its operand. -/
theorem test_decodeTableWord : decodeTableWord 32 0x00010011 = some (.wbit true) ∧ decodeTableWord 32 0x40 = none := by decide

/-! ## WellFormed and ill-formed accesses -/

theorem test_wellFormed_width_0 : (Instr.wchar 1#16 0#5).wellFormed = false := by decide
theorem test_wellFormed_width_17 : (Instr.wchar 0#16 17#5).wellFormed = false := by decide
theorem test_wellFormed_value : (Instr.wchar 16#16 4#5).wellFormed = false ∧ (Instr.wchar 15#16 4#5).wellFormed = true := by decide

/-- Rule R61: narrow, misaligned and too high accesses have no step. -/
theorem test_access_refused :
    refusal (step (queued (.read 8 0x04) fresh)) = some (.illFormedAccess 8 0x04) ∧
    refusal (step (queued (.read 32 0x02) fresh)) = some (.illFormedAccess 32 0x02) ∧
    refusal (step (queued (.write 32 0x40 0#32 []) fresh)) = some (.illFormedAccess 32 0x40) := by decide

/-! ## Register port -/

/-- T-X11. -/
theorem test_read_id :
    (answer (step (queued (.read 32 0x28) fresh))).map State.hostReads = some [0x48434331#32] := by decide

/-- T-P1: `PADDR <- 15`, `PDATA <- 0x141`. -/
theorem test_pdata_write :
    (answer (step (queued (.write 32 0x24 0x141#32 []) { fresh with paddr := 15#32 }))).map
      (fun t => (t.pbuf, t.paddr, t.fault)) = some ([(15, 0x41#8)], 16#32, false) := by decide

/-- T-P2. -/
theorem test_pdata_range :
    (answer (step (queued (.write 32 0x24 0x42#32 []) { fresh with paddr := 16#32 }))).map
      (fun t => (t.err.toWord, t.statusWord, t.paddr)) = some (0x0000FF0A#32, 0x2#32, 16#32) := by decide

/-- T-X12: `STATUS` is not writable. -/
theorem test_status_write :
    (answer (step (queued (.write 32 0x04 0xFFFFFFFF#32 []) fresh))).map State.statusWord = some 0#32 := by decide

/-- The canonical form of `PBUF` at reset, and after writes in any order. -/
theorem test_memory_wf : fresh.pbuf.wf = true ∧ ((fresh.pbuf.write 5 1#8).write 3 2#8).wf = true ∧
    (fresh.pbuf.write 5 1#8).write 3 2#8 = (fresh.pbuf.write 3 2#8).write 5 1#8 := by decide

/-! ## Control -/

/-- T-X7. -/
theorem test_nop : answer (exec .nop (writing 0b101#8 3)) = some (writing 0b101#8 3) := by decide

/-- The example of rule R251: three pending bits are lost. -/
theorem test_srst : (answer (exec .srst (failed (writing 0b101#8 3)))).map
    (fun t => (t.statusWord, t.err.toWord, t.writer.stateWord, t.writer.out)) = some (0#32, 0#32, 0#32, []) := by decide

/-- T-X10: `SRST` keeps `PBUF`. -/
theorem test_srst_pbuf : (answer (exec .srst (loaded [0x41#8]))).map State.pbuf = some [(0, 0x41#8)] := by decide

/-! ## Writer -/

/-- The example of rule R121. -/
theorem test_wopen : (answer (exec .wopen fresh)).map (fun t => (t.writer.isOpen, t.writer.stateWord, t.writer.out)) =
    some (true, 0#32, []) := by decide

theorem test_wopen_twice : (answer (exec .wopen (writing 1#8 1))).map (fun t => (t.err.toWord, t.writer.stateWord)) =
    some (0x00001004#32, 0x101#32) := by decide

/-- The example of rule R122. -/
theorem test_wbit : (answer (exec (.wbit true) (writing 0b1010110#8 7))).map (fun t => (t.writer.out, t.writer.count)) =
    some ([0xAD#8], 0) := by decide

/-- The example of rule R123. -/
theorem test_wbyte : (answer (exec (.wbyte 0xFF#8) (writing 0b101#8 3))).map (fun t => (t.writer.out, t.writer.stateWord)) =
    some ([0xBF#8], 0x307#32) := by decide

/-- The example of rule R124. -/
theorem test_wchar : (answer (exec (.wchar 5#16 3#5) (writing 0#8 0))).map (fun t => (t.writer.out, t.writer.stateWord)) =
    some ([], 0x305#32) := by decide

/-- Program P5, step 5: 31 does not fit 4 bits. -/
theorem test_wchar_bad : (answer (exec (.wchar 0x1F#16 4#5) (writing 0b111#8 3))).map
    (fun t => (t.statusWord, t.err.toWord, t.writer.stateWord)) = some (0x6#32, 0x00001302#32, 0x307#32) := by decide

/-- The example of rule R125. -/
theorem test_wint : (answer (exec .wint { writing 0#8 0 with arg := 0x01020304#32 })).map (fun t => t.writer.out) =
    some [0x01#8, 0x02#8, 0x03#8, 0x04#8] := by decide +kernel

/-- The example of rule R126, and an aligned flush. -/
theorem test_wflush : (answer (exec .wflush (writing 0b101#8 3))).map (fun t => t.writer.out) = some [0xA0#8] ∧
    (answer (exec .wflush (writing 0#8 0))).map (fun t => t.writer.out) = some [] := by decide

/-- The example of rule R127. -/
theorem test_wclose : (answer (exec .wclose (writing 1#8 1))).map (fun t => (t.writer.out, t.writer.isOpen)) =
    some ([0x80#8], false) := by decide

/-! ## Reader -/

/-- The example of rule R151. -/
theorem test_ropen : (answer (exec .ropen { fresh with offered := [0xA5#8] })).map
    (fun t => (t.reader.isOpen, t.reader.stateWord, t.reader.rin)) = some (true, 0#32, [0xA5#8]) := by decide

/-- The example of rule R152. -/
theorem test_rbit : (answer (exec .rbit (reading [0xA5#8]))).map (fun t => (t.result, t.reader.stateWord)) =
    some (1#32, 0x7A5#32) := by decide

/-- Program P3, step 10. -/
theorem test_rbit_exhausted : (answer (exec .rbit (reading []))).map (fun t => (t.err.toWord, t.result)) =
    some (0x00002105#32, 0#32) := by decide

/-- The example of rule R153. -/
theorem test_rbyte : (answer (exec .rbyte { fresh with reader := ⟨0xA5#8, 7, true, [0x0F#8]⟩ })).map
    (fun t => (t.result, t.reader.stateWord)) = some (0x4A#32, 0x70F#32) := by decide

/-- Rules R153 and R158: the bits before the end are consumed. -/
theorem test_rbyte_exhausted : (answer (exec .rbyte { fresh with reader := ⟨0xA5#8, 7, true, []⟩ })).map
    (fun t => (t.err.toWord, t.reader.count, t.result)) = some (0x00002205#32, 0, 0#32) := by decide

/-- The example of rule R154. -/
theorem test_rint : (answer (exec .rint (reading [0x00#8, 0x00#8, 0x00#8, 0x0A#8]))).map
    (fun t => (t.result, t.reader.count, t.reader.rin)) = some (10#32, 0, []) := by decide +kernel

/-- The example of rule R155 (program P3, step 4): four pad bits are left. -/
theorem test_ravail : (answer (exec .ravail { fresh with reader := ⟨0xA0#8, 4, true, []⟩ })).map
    (fun t => (t.result, t.reader.stateWord)) = some (1#32, 0x4A0#32) := by decide

/-- Rule R151's corner case: an empty stream has nothing available; a stream with a byte has, and the byte is not taken. -/
theorem test_ravail_fresh : (answer (exec .ravail (reading []))).map State.result = some 0#32 ∧
    (answer (exec .ravail (reading [0#8]))).map (fun t => (t.result, t.reader.rin)) = some (1#32, [0#8]) := by decide

/-- The example of rule R156. -/
theorem test_rclose : (answer (exec .rclose { fresh with reader := ⟨0xA0#8, 4, true, []⟩ })).map
    (fun t => (t.reader.stateWord, t.reader.isOpen)) = some (0#32, false) := by decide

/-! ## Codec -/

/-- The example of rule R180 (T-E1). -/
theorem test_encode : (answer (exec .encode (loaded payloadE1))).map (fun t => (t.writer.out, t.writer.stateWord, t.result)) =
    some (streamE1.take 9, 0x40A#32, 3#32) := by decide +kernel

/-- T-E12. -/
theorem test_encode_too_long : (answer (exec .encode { writing 0#8 0 with arg := 17#32 })).map
    (fun t => (t.err.toWord, t.statusWord, t.writer.out)) = some (0x00003008#32, 0x6#32, []) := by decide

/-- The example of rule R220 (program P3). -/
theorem test_decode : (answer (exec .decode (reading streamE1))).map
    (fun t => (t.dout, t.result, t.dcount, t.reader.stateWord, t.reader.rin)) =
    some (payloadE1, 10#32, 10#32, 0x4A0#32, []) := by decide +kernel

/-- T-D7. -/
theorem test_decode_corrupt : (answer (exec .decode (reading (streamE1.take 8)))).map
    (fun t => (t.err.toWord, t.dout, t.dcount, t.result)) =
    some (0x00033106#32, [0x41#8, 0x41#8, 0x41#8], 3#32, 0#32) := by decide +kernel

/-! ## A step -/

/-- The first step after reset runs the word the host placed. -/
theorem test_withFetchWord : (answer (step (State.reset.withFetchWord 32 0x10))).map (fun t => t.writer.isOpen) = some true := by
  decide

/-- `ROPEN` through the register port takes the bytes delivered with it, and leaves none on offer. -/
theorem test_step_ropen : (answer (step (queued (.write 32 0x00 0x20#32 [0xA5#8]) fresh))).map
    (fun t => (t.reader.rin, t.offered, t.busy, t.statusWord)) = some ([0xA5#8], [], false, 0x8#32) := by decide

/-! ## Witnesses: states that meet the hypotheses of the obligations -/

theorem witness_LegalWordsAreMatchAndMask :
    ¬ ((0x00000040#32 : Word) ∈ ([0x00000000#32, 0x00000001#32, 0x00000010#32, 0x00000014#32, 0x00000015#32, 0x00000016#32,
      0x00000020#32, 0x00000021#32, 0x00000022#32, 0x00000023#32, 0x00000024#32, 0x00000025#32, 0x00000030#32,
      0x00000031#32] : List Word) ∨
      0x00000040#32 &&& 0xFFFEFFFF#32 = 0x00000011#32 ∨ 0x00000040#32 &&& 0xFF00FFFF#32 = 0x00000012#32 ∨
      0x00000040#32 &&& 0x0000E0FF#32 = 0x00000013#32) ∧ fresh.fault = false := by decide

theorem witness_StepRunsTheDecodedCommand :
    (queued (.write 32 0x00 0x00010011#32 []) fresh).busy = false ∧
    (queued (.write 32 0x00 0x00010011#32 []) fresh).pending = [.write 32 0x00 0x00010011#32 []] ∧
    decode 0x00010011#32 = .ok (.wbit true) ∧ (queued (.write 32 0x00 0x00010011#32 []) fresh).fault = false := by decide

theorem witness_StepRunsTheDecodedCommand_faulted :
    (queued (.write 32 0x00 0x00000016#32 []) (failed fresh)).busy = false ∧
    (queued (.write 32 0x00 0x00000016#32 []) (failed fresh)).pending = [.write 32 0x00 0x00000016#32 []] ∧
    decode 0x00000016#32 = .ok .wclose ∧ (queued (.write 32 0x00 0x00000016#32 []) (failed fresh)).fault = true := by decide

theorem witness_FaultGateIgnoresCommands :
    (queued (.write 32 0x00 0x00000040#32 []) (failed fresh)).busy = false ∧
    (queued (.write 32 0x00 0x00000040#32 []) (failed fresh)).fault = true ∧
    (queued (.write 32 0x00 0x00000040#32 []) (failed fresh)).pending = [.write 32 0x00 0x00000040#32 []] ∧
    (0x00000040#32 : Word) ≠ 0x00000000#32 ∧ (0x00000040#32 : Word) ≠ 0x00000016#32 ∧
    (0x00000040#32 : Word) ≠ 0x00000025#32 ∧ (0x00000040#32 : Word) ≠ 0x00000001#32 := by decide

theorem witness_BlockWaitsForTheHost : fresh.pending = [] := by decide

theorem witness_OnlyAlignedWordAccessesHaveAStep_refused :
    (queued (.read 32 0x3E) fresh).busy = false ∧ (queued (.read 32 0x3E) fresh).pending = [.read 32 0x3E] ∧
    ¬ (32 = 32 ∧ 0x3E % 4 = 0 ∧ 0x3E ≤ 0x3C) := by decide

theorem witness_OnlyAlignedWordAccessesHaveAStep :
    (queued (.write 32 0x3C 0#32 []) fresh).busy = false ∧
    (queued (.write 32 0x3C 0#32 []) fresh).pending = [.write 32 0x3C 0#32 []] ∧ (32 = 32 ∧ 0x3C % 4 = 0 ∧ 0x3C ≤ 0x3C) := by
  decide

theorem witness_WhileBusyOnlyStatusIsRead_status :
    (queued (.read 32 0x04) { fresh with busy := true }).busy = true ∧ 0x04 % 4 = 0 ∧ 0x04 ≤ 0x3C ∧
    (queued (.read 32 0x04) { fresh with busy := true }).pending = [.read 32 0x04] := by decide

theorem witness_WhileBusyOnlyStatusIsRead_other :
    (queued (.read 32 0x3C) { fresh with busy := true }).busy = true ∧ 0x3C % 4 = 0 ∧ 0x3C ≤ 0x3C ∧
    (queued (.read 32 0x3C) { fresh with busy := true }).pending = [.read 32 0x3C] ∧ 0x3C ≠ 0x04 := by decide

theorem witness_WhileBusyOnlyStatusIsRead_write :
    (queued (.write 32 0x00 0#32 []) { fresh with busy := true }).busy = true ∧ 0x00 % 4 = 0 ∧ 0x00 ≤ 0x3C ∧
    (queued (.write 32 0x00 0#32 []) { fresh with busy := true }).pending = [.write 32 0x00 0#32 []] := by decide

theorem witness_RegisterReadsHaveNoSideEffect (o : Nat)
    (h : o ∈ [0x00, 0x04, 0x08, 0x0C, 0x10, 0x14, 0x18, 0x1C, 0x20, 0x28, 0x2C, 0x30, 0x34, 0x38, 0x3C]) :
    let s := queued (.read 32 o) fresh
    s.busy = false ∧ s.pending = [.read 32 o] ∧
    ∃ v, (o, v) ∈ [(0x00, 0#32), (0x04, s.statusWord), (0x08, s.err.toWord), (0x0C, s.arg), (0x10, s.result),
      (0x14, s.writer.stateWord), (0x18, s.reader.stateWord), (0x1C, s.dcount), (0x20, s.paddr), (0x28, 0x48434331#32),
      (0x2C, s.payloadCap), (0x30, 0#32), (0x34, 0#32), (0x38, 0#32), (0x3C, 0#32)] := by
  refine ⟨rfl, rfl, ?_⟩
  simp only [List.mem_cons, List.not_mem_nil, or_false] at h
  rcases h with rfl | rfl | rfl | rfl | rfl | rfl | rfl | rfl | rfl | rfl | rfl | rfl | rfl | rfl | rfl <;> simp

theorem witness_ReadOnlyAndReservedWritesAreIgnored_write :
    (queued (.write 32 0x04 1#32 []) fresh).busy = false ∧
    (queued (.write 32 0x04 1#32 []) fresh).pending = [.write 32 0x04 1#32 []] ∧
    0x04 ∈ [0x30, 0x34, 0x38, 0x3C, 0x04, 0x08, 0x10, 0x14, 0x18, 0x1C, 0x28, 0x2C] := by decide

theorem witness_ReadOnlyAndReservedWritesAreIgnored_read :
    (queued (.read 32 0x30) fresh).busy = false ∧ (queued (.read 32 0x30) fresh).pending = [.read 32 0x30] ∧
    0x30 ∈ [0x30, 0x34, 0x38, 0x3C] := by decide

/-- `ARG <- 10` and then `ENCODE`, the usual use. -/
theorem witness_ArgAndPaddrHoldWhatIsWritten_write :
    let command : HostAction := .write 32 0x00 0x30#32 []
    let s : State := { fresh with pending := [.write 32 0x0C 10#32 [], command] }
    let s' : State := { fresh with pending := [.write 32 0x20 0xFFFFFFFF#32 []] }
    s.busy = false ∧ s.pending = .write 32 0x0C 10#32 [] :: [command] ∧ s'.busy = false ∧
    s'.pending = .write 32 0x20 0xFFFFFFFF#32 [] :: [] := by decide

theorem witness_ArgAndPaddrHoldWhatIsWritten_read :
    (queued (.read 32 0x0C) fresh).busy = false ∧ (queued (.read 32 0x0C) fresh).pending = .read 32 0x0C :: [] ∧
    (queued (.read 32 0x20) fresh).pending = .read 32 0x20 :: [] := by decide

theorem witness_PdataMovesOneByte_write_in_range :
    (queued (.write 32 0x24 1#32 []) { fresh with paddr := 15#32 }).busy = false ∧
    (queued (.write 32 0x24 1#32 []) { fresh with paddr := 15#32 }).pending = [.write 32 0x24 1#32 []] ∧
    (15#32 : Word).toNat < fresh.payloadCap.toNat := by decide

theorem witness_PdataMovesOneByte_write_out_of_range :
    (queued (.write 32 0x24 1#32 []) { fresh with paddr := 16#32 }).busy = false ∧
    (queued (.write 32 0x24 1#32 []) { fresh with paddr := 16#32 }).pending = [.write 32 0x24 1#32 []] ∧
    fresh.payloadCap.toNat ≤ (16#32 : Word).toNat := by decide

theorem witness_PdataMovesOneByte_read_in_range :
    (queued (.read 32 0x24) { fresh with paddr := 15#32, pbuf := [(15, 7#8)] }).busy = false ∧
    (queued (.read 32 0x24) { fresh with paddr := 15#32, pbuf := [(15, 7#8)] }).pending = [.read 32 0x24] ∧
    (15#32 : Word).toNat < fresh.payloadCap.toNat ∧ Memory.read [(15, 7#8)] 15 = some 7#8 := by decide

theorem witness_PdataMovesOneByte_read_out_of_range :
    (queued (.read 32 0x24) { fresh with paddr := 16#32 }).busy = false ∧
    (queued (.read 32 0x24) { fresh with paddr := 16#32 }).pending = [.read 32 0x24] ∧
    fresh.payloadCap.toNat ≤ (16#32 : Word).toNat := by decide

theorem witness_StatusShowsItsFourFlags : 0 < 32 ∧ 3 < 32 ∧ 4 < 32 ∧ 31 < 32 := by decide

theorem witness_StateWordsShowBufferAndCount : (⟨0x7F#8, 7, true, []⟩ : Writer).count ≤ 7 ∧
    (⟨0xFF#8, 8, true, []⟩ : Reader).count ≤ 8 := by decide

theorem witness_NopChangesNothing : (0x00000100#32 : Word).extractLsb' 0 8 = 0#8 ∧ (0x00000100#32 : Word) ≠ 0#32 := by decide

theorem witness_SrstAndResetDifferOnlyInPbuf :
    (queued (.write 32 0x00 0x00000001#32 []) (loaded [0x41#8])).busy = false ∧
    (queued (.write 32 0x00 0x00000001#32 []) (loaded [0x41#8])).pending = [.write 32 0x00 0x00000001#32 []] := by decide

theorem witness_RaiseRecordsOnlyTheFirstFault : fresh.fault = false ∧ (failed fresh).fault = true := by decide

theorem witness_RecordedFaultIsSticky :
    (∃ t, step (queued (.read 32 0x08) (failed fresh)) = .next t) ∧ (queued (.read 32 0x08) (failed fresh)).fault = true :=
  ⟨⟨_, rfl⟩, rfl⟩

theorem witness_RecordedFaultIsSticky_cleared :
    (∃ t, step (queued (.write 32 0x00 0x00000001#32 []) (failed fresh)) = .next t ∧ t.fault = false) ∧
    (∃ t, step (queued .hardReset (failed fresh)) = .next t ∧ t.fault = false) :=
  ⟨⟨_, rfl, rfl⟩, ⟨_, rfl, rfl⟩⟩

theorem witness_StreamStateIsCheckedFirst :
    fresh.fault = false ∧ fresh.writer.isOpen = false ∧ fresh.reader.isOpen = false ∧
    (writing 0#8 0).fault = false ∧ (writing 0#8 0).writer.isOpen = true ∧
    (reading []).fault = false ∧ (reading []).reader.isOpen = true := by decide

theorem witness_ResultChangesOnlyByReadsAndCodec :
    ∃ t, exec .rbit (reading [0x80#8]) = .next t ∧ t.result ≠ (reading [0x80#8]).result := ⟨_, rfl, by decide⟩

theorem witness_ResultChangesOnlyByReadsAndCodec_srst :
    ∃ t, exec .srst { fresh with result := 1#32 } = .next t ∧ t.result ≠ 1#32 := ⟨_, rfl, by decide⟩

theorem witness_NoCommandWritesPbufOrOperands :
    (∃ t, exec .nop fresh = .next t) ∧ Instr.nop ≠ .srst := ⟨⟨_, rfl⟩, by decide⟩

theorem witness_WopenStartsAnEmptyStream : fresh.writer.isOpen = false := by decide

/-- Also for `WBYTE`, `WINT`, `WFLUSH` and `WCLOSE`: an open writer, aligned and with a full partial byte. -/
theorem witness_WbitAppendsOneBit :
    (writing 0#8 0).writer.isOpen = true ∧ (writing 0#8 0).writer.count ≤ 7 ∧
    (writing 0x7F#8 7).writer.isOpen = true ∧ (writing 0x7F#8 7).writer.count ≤ 7 := by decide

theorem witness_WbyteEmitsOneByte :
    (writing 0b101#8 3).writer.isOpen = true ∧ (writing 0b101#8 3).writer.count ≤ 7 := by decide

theorem witness_WcharAppendsItsWidth_legal :
    (writing 0#8 7).writer.isOpen = true ∧ (writing 0#8 7).writer.count ≤ 7 ∧
    (1 ≤ (16#5 : BitVec 5).toNat ∧ (16#5 : BitVec 5).toNat ≤ 16 ∧ (0xFFFF#16 : BitVec 16).toNat < 2 ^ (16#5 : BitVec 5).toNat) ∧
    (1 ≤ (1#5 : BitVec 5).toNat ∧ (1#5 : BitVec 5).toNat ≤ 16 ∧ (1#16 : BitVec 16).toNat < 2 ^ (1#5 : BitVec 5).toNat) := by decide

theorem witness_WcharAppendsItsWidth_illegal :
    (writing 0#8 7).writer.isOpen = true ∧ (writing 0#8 7).writer.count ≤ 7 ∧ (writing 0#8 7).fault = false ∧
    ¬ (1 ≤ (0#5 : BitVec 5).toNat ∧ (0#5 : BitVec 5).toNat ≤ 16 ∧ (0#16 : BitVec 16).toNat < 2 ^ (0#5 : BitVec 5).toNat) ∧
    ¬ (1 ≤ (17#5 : BitVec 5).toNat ∧ (17#5 : BitVec 5).toNat ≤ 16 ∧ (0#16 : BitVec 16).toNat < 2 ^ (17#5 : BitVec 5).toNat) ∧
    ¬ (1 ≤ (4#5 : BitVec 5).toNat ∧ (4#5 : BitVec 5).toNat ≤ 16 ∧ (16#16 : BitVec 16).toNat < 2 ^ (4#5 : BitVec 5).toNat) := by
  decide

theorem witness_WintIsFourBytesBigEndian :
    ({ writing 0#8 0 with arg := 0x01020304#32 } : State).writer.isOpen = true ∧
    ({ writing 0#8 0 with arg := 0x01020304#32 } : State).writer.count ≤ 7 ∧
    ({ writing 0#8 0 with arg := 0x01020304#32 } : State).writer.count = 0 := by decide

theorem witness_WriteWidthsAgree : (writing 0b101#8 3).writer.isOpen = true := by decide

theorem witness_WflushPadsThePartialByte :
    (writing 0#8 0).writer.isOpen = true ∧ (writing 0#8 0).writer.count = 0 ∧
    (writing 0x7F#8 7).writer.isOpen = true ∧ (writing 0x7F#8 7).writer.count ≤ 7 ∧ 0 < (writing 0x7F#8 7).writer.count := by
  decide

theorem witness_WcloseFlushesAndReleases :
    fresh.writer.isOpen = false ∧ (writing 1#8 1).writer.isOpen = true ∧ (writing 1#8 1).writer.count ≤ 7 := by decide

theorem witness_WriterOnlyAppends :
    (writing 0x56#8 7).writer.Inv ∧ Instr.wbit true ≠ .srst ∧ (writing 0x56#8 7).writer.isOpen = true ∧
    ∃ t, exec (.wbit true) (writing 0x56#8 7) = .next t :=
  ⟨⟨by decide, by decide, by decide⟩, by decide, by decide, ⟨_, rfl⟩⟩

theorem witness_RopenAttachesTheDeliveredBytes : fresh.reader.isOpen = false := by decide

theorem witness_ReadCommandsReturnTheNextBits :
    (reading [0xA5#8]).reader.isOpen = true ∧
    (Instr.rbit, 1) ∈ [(Instr.rbit, 1), (.rbyte, 8), (.rint, 32)] ∧
    (reading [0xA5#8]).reader.unread = [true] ++ [false, true, false, false, true, false, true] ∧ [true].length = 1 ∧
    (Instr.rbyte, 8) ∈ [(Instr.rbit, 1), (.rbyte, 8), (.rint, 32)] ∧
    (reading [0xA5#8]).reader.unread = [true, false, true, false, false, true, false, true] ++ [] ∧
    (Instr.rint, 32) ∈ [(Instr.rbit, 1), (.rbyte, 8), (.rint, 32)] ∧
    (reading [0#8, 0#8, 0#8, 0#8]).reader.unread = List.replicate 32 false ++ [] := by decide

theorem witness_ReadPastTheEndFaults :
    (Instr.rbit, 1) ∈ [(Instr.rbit, 1), (.rbyte, 8), (.rint, 32)] ∧ (reading []).reader.isOpen = true ∧
    (reading []).reader.unread.length < 1 ∧ (reading []).fault = false ∧
    (Instr.rint, 32) ∈ [(Instr.rbit, 1), (.rbyte, 8), (.rint, 32)] ∧
    (reading [0#8, 0#8, 0#8]).reader.isOpen = true ∧ (reading [0#8, 0#8, 0#8]).reader.unread.length < 32 ∧
    (reading [0#8, 0#8, 0#8]).fault = false := by decide

theorem witness_RintIsFourRbytesBigEndian :
    (reading [1#8, 2#8, 3#8, 4#8]).reader.isOpen = true ∧ 32 ≤ (reading [1#8, 2#8, 3#8, 4#8]).reader.unread.length := by decide

theorem witness_RavailTellsWhetherABitIsLeft : (reading []).reader.isOpen = true ∧ (reading [0#8]).reader.isOpen = true := by
  decide

theorem witness_RcloseDropsTheInput : fresh.reader.isOpen = false ∧ (reading [0#8]).reader.isOpen = true := by decide

theorem witness_ReaderConsumesAPrefix :
    Instr.rbit ≠ .ropen ∧ Instr.rbit ≠ .rclose ∧ Instr.rbit ≠ .srst ∧ (reading [0xA5#8]).reader.count ≤ 8 ∧
    ∃ t, exec .rbit (reading [0xA5#8]) = .next t := ⟨by decide, by decide, by decide, by decide, ⟨_, rfl⟩⟩

/-- Also for `ENCODE`'s output size and for the round trip: the longest payload that `PAYLOAD_CAP` = 16 admits, and the empty one. -/
theorem witness_EncodeWritesTrieLengthAndCodes :
    (loaded (List.replicate 16 0x41#8)).writer.isOpen = true ∧ (loaded (List.replicate 16 0x41#8)).writer.count ≤ 7 ∧
    (loaded (List.replicate 16 0x41#8)).arg.toNat ≤ (loaded (List.replicate 16 0x41#8)).payloadCap.toNat ∧
    (loaded []).writer.isOpen = true ∧ (loaded []).arg.toNat ≤ (loaded []).payloadCap.toNat := by decide

theorem witness_EncodeRefusesTooLongAPayload :
    ({ writing 0#8 0 with arg := 17#32 } : State).writer.isOpen = true ∧
    ({ writing 0#8 0 with arg := 17#32 } : State).payloadCap.toNat < (17#32 : Word).toNat ∧
    ({ writing 0#8 0 with arg := 17#32 } : State).fault = false := by decide

/-- Two entries of equal weight: the older one is extracted. -/
theorem witness_ExtractMinTakesTheLeastKey :
    extractMin ⟨5, 3, .leaf 1#8⟩ [⟨5, 0, .leaf 2#8⟩] = (⟨5, 0, .leaf 2#8⟩, [⟨5, 3, .leaf 1#8⟩]) := by decide

theorem witness_ExtractMinTakesTheLeastKey_pass : [(⟨5, 0, .leaf 2#8⟩ : QueueEntry)] ≠ [] := by decide

theorem witness_EncoderTrieHasOneLeafPerValue : (0x43#8 : Byte) ∈ payloadE1 := by decide

theorem witness_CodesArePrefixFree :
    (0x41#8 : Byte) ≠ 0x42#8 ∧
    (deriveCodes (.node (.leaf 0x41#8) (.leaf 0x42#8))).lookup 0x41#8 = some [false] ∧
    (deriveCodes (.node (.leaf 0x41#8) (.leaf 0x42#8))).lookup 0x42#8 = some [true] := by decide

theorem witness_CodeLengthsAreBounded : ((0x43#8 : Byte), [true, false]) ∈ deriveCodes (buildTrie payloadE1) := by
  decide +kernel

theorem witness_EncodeOutputSize :
    (loaded payloadE1).writer.isOpen = true ∧ (loaded payloadE1).writer.count ≤ 7 ∧
    (loaded payloadE1).arg.toNat ≤ (loaded payloadE1).payloadCap.toNat ∧
    ∃ t, exec .encode (loaded payloadE1) = .next t :=
  ⟨by decide, by decide, by decide, ⟨_, execEncode_eq (by decide) (by decide)⟩⟩

/-- Two blocks that differ in `RESULT`, `DOUT` and the fault record. -/
theorem witness_EncodeIsDeterministic :
    let s := loaded [0x41#8]
    let s' : State := { failed (loaded [0x41#8]) with result := 9#32, dout := [1#8] }
    s.arg = s'.arg ∧ s.writer = s'.writer ∧ s.arg.toNat ≤ s.payloadCap.toNat ∧ s'.arg.toNat ≤ s'.payloadCap.toNat ∧
    s.writer.isOpen = true ∧
    (∀ i, i < s.arg.toNat → (s.pbuf.read i).isSome = true ∧ s.pbuf.read i = s'.pbuf.read i) ∧
    (∃ t, exec .encode s = .next t) ∧ ∃ t, exec .encode s' = .next t :=
  ⟨rfl, rfl, by decide, by decide, rfl, by decide, ⟨_, execEncode_eq (by decide) (by decide)⟩,
    ⟨_, execEncode_eq (by decide) (by decide)⟩⟩

theorem witness_TrieSerializationRoundTrip :
    (Trie.node (.leaf 0x41#8) (.leaf 0x42#8)).size ≤ 511 ∧
    (reading [0x50#8, 0x68#8, 0x40#8]).reader.unread =
      (Trie.node (.leaf 0x41#8) (.leaf 0x42#8)).serialize ++ [false, false, false, false, false] := by decide

/-- T-D3: two leaves of one value. -/
theorem witness_DecodeEmitsTheCodedLeaves :
    let s := reading [0x50#8, 0x68#8, 0x20#8, 0x00#8, 0x00#8, 0x00#8, 0x48#8]
    let root : Trie := .node (.leaf 0x41#8) (.leaf 0x41#8)
    let symbols : List (Byte × List Bool) := [(0x41#8, [false]), (0x41#8, [true])]
    s.reader.isOpen = true ∧ root.size ≤ 511 ∧ (∀ c ∈ symbols, c ∈ root.walk []) ∧ symbols.length < 2 ^ 32 ∧
    s.reader.unread = root.serialize ++ bitsMsb (BitVec.ofNat 32 symbols.length) 32 ++ symbols.flatMap Prod.snd ++
      [false, false, false] := by decide +kernel

/-- T-D2: a root leaf, whose code is empty. -/
theorem witness_DecodeEmitsTheCodedLeaves_rootLeaf :
    let s := reading [0xA0#8, 0x80#8, 0x00#8, 0x00#8, 0x01#8, 0x80#8]
    let root : Trie := .leaf 0x41#8
    let symbols : List (Byte × List Bool) := [(0x41#8, []), (0x41#8, []), (0x41#8, [])]
    s.reader.isOpen = true ∧ root.size ≤ 511 ∧ (∀ c ∈ symbols, c ∈ root.walk []) ∧ symbols.length < 2 ^ 32 ∧
    s.reader.unread = root.serialize ++ bitsMsb (BitVec.ofNat 32 symbols.length) 32 ++ symbols.flatMap Prod.snd ++
      List.replicate 7 false := by decide +kernel

/-- T-E1 and T-D1: what the encoder writes, followed by 4 more bits. -/
theorem witness_DecodeInvertsEncode :
    (loaded payloadE1).writer.isOpen = true ∧ (loaded payloadE1).writer.count ≤ 7 ∧
    (loaded payloadE1).arg.toNat ≤ (loaded payloadE1).payloadCap.toNat ∧ (reading streamE1).reader.isOpen = true ∧
    (reading streamE1).reader.unread = payloadBits (buildTrie payloadE1) 10#32 payloadE1 ++ [false, false, false, false] := by
  decide +kernel

/-- T-D9. -/
theorem witness_TrieOverflowBeforeThe512thFlag :
    (reading (List.replicate 64 0#8)).reader.isOpen = true ∧ (reading (List.replicate 64 0#8)).fault = false ∧
    (reading (List.replicate 64 0#8)).reader.unread = List.replicate 511 false ++ [false] := by decide +kernel

/-- A trie of `n` internal nodes, each the left child of the one before. -/
def leftComb : Nat → Trie
  | 0 => .leaf 0#8
  | n + 1 => .node (leftComb n) (.leaf 0#8)

/-- A trie of `n` internal nodes, each the right child of the one before. -/
def rightComb : Nat → Trie
  | 0 => .leaf 0#8
  | n + 1 => .node (.leaf 0#8) (rightComb n)

/-- T-D9, and 511 nodes of which 255 are leaves, each with the first bit of a 512th node behind them. -/
theorem witness_DecodeFaultsWhereTheInputOrTheNodesEnd_overflow :
    let mixed := (List.replicate 63 [0x40#8, 0x10#8, 0x04#8, 0x01#8, 0x00#8]).flatten ++ [0x40#8, 0x10#8, 0x04#8, 0x00#8]
    (reading mixed).reader.isOpen = true ∧ (reading mixed).fault = false ∧
    511 < (rightComb 256).size ∧
    (reading mixed).reader.unread = ((rightComb 256).preorder.take 511).flatMap nodeBits ++ [false] ∧
    511 < (leftComb 511).size ∧
    (reading (List.replicate 64 0#8)).reader.unread = ((leftComb 511).preorder.take 511).flatMap nodeBits ++ [false] := by
  decide +kernel

/-- T-D4, T-D10, and a leaf without its last bit. -/
theorem witness_DecodeFaultsWhereTheInputOrTheNodesEnd_trie :
    (reading []).reader.unread ++ [true, false, true, false, false, false, false, false, true] =
      ((Trie.leaf 0x41#8).preorder.take 511).flatMap nodeBits ∧
    (reading (List.replicate 63 0#8)).reader.unread ++ List.replicate 7 false =
      ((leftComb 511).preorder.take 511).flatMap nodeBits ∧
    (reading [0xA0#8]).reader.unread ++ [true] = ((Trie.leaf 0x41#8).preorder.take 511).flatMap nodeBits := by
  decide +kernel

/-- T-D6, and a root leaf followed by 31 bits. -/
theorem witness_DecodeFaultsWhereTheInputOrTheNodesEnd_length :
    (buildTrie payloadE1).size ≤ 511 ∧
    (reading (streamE1.take 4)).reader.unread = (buildTrie payloadE1).serialize ++ [false, false, false] ∧
    (Trie.leaf 0x41#8).size ≤ 511 ∧ (List.replicate 31 false).length < 32 ∧
    (reading [0xA0#8, 0x80#8, 0#8, 0#8, 0#8]).reader.unread = (Trie.leaf 0x41#8).serialize ++ List.replicate 31 false := by
  decide +kernel

/-- T-D7 (3 symbols of 10, nothing of the next), and 2 symbols of 3 with one bit of the third. -/
theorem witness_DecodeFaultsWhereTheInputOrTheNodesEnd_symbols :
    let root := buildTrie payloadE1
    let a : Byte × List Bool := (0x41#8, [false])
    let b : Byte × List Bool := (0x42#8, [true, true])
    root.size ≤ 511 ∧ a ∈ root.walk [] ∧ b ∈ root.walk [] ∧
    [a, a, a].length < (10#32 : Word).toNat ∧ [] <+: b.2 ∧ [] ≠ b.2 ∧
    (reading (streamE1.take 8)).reader.unread =
      root.serialize ++ bitsMsb 10#32 32 ++ [a, a, a].flatMap Prod.snd ++ [] ∧
    [a, a].length < (3#32 : Word).toNat ∧ [true] <+: b.2 ∧ [true] ≠ b.2 ∧
    (reading [0x50#8, 0x54#8, 0x3A#8, 0x10#8, 0#8, 0#8, 0#8, 0x19#8]).reader.unread =
      root.serialize ++ bitsMsb 3#32 32 ++ [a, a].flatMap Prod.snd ++ [true] := by
  decide +kernel

/-- T-D4. -/
theorem witness_DecodeFaultLeavesWhatWasReadAndEmitted :
    (reading []).reader.isOpen = true ∧ (reading []).fault = false ∧
    ∃ t, exec .decode (reading []) = .next t ∧ t.fault = true ∧ t.err.code = .corruptStream := ⟨rfl, rfl, _, rfl, rfl, rfl⟩

theorem witness_DecodeIgnoresPbufAndWriter : ∃ t, exec .decode fresh = .next t := ⟨_, rfl⟩

theorem witness_WorkingStorageNeverMatters : ∃ t, step (queued (.write 32 0x00 0x31#32 []) fresh) = .next t := ⟨_, rfl⟩

theorem witness_StepKeepsStateInvariant :
    (queued (.write 32 0x00 0x10#32 []) fresh).Inv ∧ ∃ t, step (queued (.write 32 0x00 0x10#32 []) fresh) = .next t :=
  ⟨⟨rfl, rfl, ⟨fun _ => rfl, by decide, by decide⟩, by decide, Writer.closed_inv, Reader.closed_inv, ⟨rfl, fun _ _ => rfl⟩⟩, ⟨_, rfl⟩⟩

theorem witness_ResetMeetsStateInvariant : 0 < (1#32 : Word).toNat := by decide

end Sys2Proof.Tests
end

/-! # Proofs: the state, the registers and every step (10_state.md)

First the facts the proofs share: the fields of a register word, what a command can do, what a step can do, and what keeps the
invariant.  Then the obligations. -/

namespace Sys2Proof.Machine

/-! ## Fields of a register word -/

/-- A field placed at bit `lo` is read back there. -/
theorem extractLsb'_field_same {w : Nat} (x : BitVec w) {lo : Nat} (h : lo + w ≤ 32) :
    (x.setWidth 32 <<< lo : Word).extractLsb' lo w = x := by
  apply BitVec.eq_of_getLsbD_eq
  intro k hk
  have h1 : lo + k < 32 := by omega
  simp [hk, h1]

/-- A field placed at bit `lo` leaves the bits below and above it 0. -/
theorem extractLsb'_field_disjoint {w : Nat} (x : BitVec w) {lo start len : Nat} (h : start + len ≤ lo ∨ lo + w ≤ start) :
    (x.setWidth 32 <<< lo : Word).extractLsb' start len = 0#len := by
  apply BitVec.eq_of_getLsbD_eq
  intro k hk
  simp only [BitVec.getLsbD_extractLsb', BitVec.getLsbD_shiftLeft, BitVec.getLsbD_setWidth, BitVec.getLsbD_zero]
  rcases h with below | above
  · have : start + k < lo := by omega
    simp [this]
  · rw [BitVec.getLsbD_of_ge x (start + k - lo) (by omega)]
    simp

theorem flagBit_getLsbD (b : Bool) {n k : Nat} (hk : k < 32) : (flagBit b n).getLsbD k = (decide (k = n) && b) := by
  simp only [flagBit, BitVec.getLsbD_shiftLeft, BitVec.getLsbD_setWidth, BitVec.getLsbD_ofBool, hk, decide_true, Bool.true_and]
  by_cases h : k = n
  · subst h; simp
  · by_cases h2 : k < n
    · simp [h, h2]
    · have : k - n ≠ 0 := by omega
      simp [h, this]

/-- `ERR` as its three fields, each at its place. -/
theorem ErrRecord.toWord_eq (e : ErrRecord) :
    e.toWord = (e.code.toByte.setWidth 32 <<< 0) ||| (e.opc.setWidth 32 <<< 8) ||| (e.phase.toNibble.setWidth 32 <<< 16) := by
  simp [ErrRecord.toWord]

/-- `WSTATE` as its two fields, each at its place. -/
theorem Writer.stateWord_eq (w : Writer) :
    w.stateWord = (w.buf.setWidth 32 <<< 0) ||| ((BitVec.ofNat 3 w.count).setWidth 32 <<< 8) := by
  simp [Writer.stateWord]

/-- `RSTATE` as its two fields, each at its place. -/
theorem Reader.stateWord_eq (r : Reader) :
    r.stateWord = (r.buf.setWidth 32 <<< 0) ||| ((BitVec.ofNat 4 r.count).setWidth 32 <<< 8) := by
  simp [Reader.stateWord]

/-- Settles O14: each flag is one bit of the word. -/
theorem statusShowsItsFourFlags : Obligations.StatusShowsItsFourFlags := by
  intro s k hk
  simp only [State.statusWord, BitVec.getLsbD_or, flagBit_getLsbD _ hk]
  match k with
  | 0 | 1 | 2 | 3 => simp
  | k + 4 => simp

/-- Settles O15: the fields of `ERR` do not overlap, so each is read back. -/
theorem errShowsCodeOpcodeAndPhase : Obligations.ErrShowsCodeOpcodeAndPhase := by
  intro e
  rw [ErrRecord.toWord_eq]
  simp (disch := decide) only [BitVec.extractLsb'_or, extractLsb'_field_same, extractLsb'_field_disjoint, BitVec.or_zero,
    BitVec.zero_or, and_true, true_and]
  exact ⟨by cases e.code <;> rfl, by cases e.phase <;> rfl⟩

/-- A register word of a buffer and a count of `n` bits shows both, with zeros above. -/
theorem bufferAndCount_fields (buf : Byte) {n count : Nat} (hn : 8 + n ≤ 32) (hc : count < 2 ^ n) {len : Nat} :
    let word : Word := (buf.setWidth 32 <<< 0) ||| ((BitVec.ofNat n count).setWidth 32 <<< 8)
    word.extractLsb' 0 8 = buf ∧ (word.extractLsb' 8 n).toNat = count ∧ word.extractLsb' (8 + n) len = 0#len := by
  simp (disch := omega) only [BitVec.extractLsb'_or, extractLsb'_field_same, extractLsb'_field_disjoint, BitVec.or_zero,
    BitVec.zero_or, BitVec.toNat_ofNat, Nat.mod_eq_of_lt hc, and_self]

/-- Settles O16: a count within its bound fits its field. -/
theorem stateWordsShowBufferAndCount : Obligations.StateWordsShowBufferAndCount := by
  constructor
  · intro w hw
    rw [Writer.stateWord_eq]
    exact bufferAndCount_fields w.buf (by decide) (by omega)
  · intro r hr
    rw [Reader.stateWord_eq]
    exact bufferAndCount_fields r.buf (by decide) (by omega)

/-! ## What a command can do -/

/-- The fault codes a command raises outside `DECODE`'s phases before it has done anything (60_exceptions.md rule R261). -/
def entryFaults : List FaultCode := [.badOperand, .notOpen, .alreadyOpen, .lengthTooLarge]

/-- The ways command `i` can leave `s`.  Each names every field it changes. -/
inductive ExecEffect (i : Instr) (s : State) : State → Prop
  /-- `NOP`, and a close of a closed stream. -/
  | unchanged (hi : i ∈ [Instr.nop, .wclose, .rclose]) : ExecEffect i s s
  | reset (hi : i = .srst) : ExecEffect i s s.softReset
  /-- A stream or operand check failed. -/
  | stopped (code : FaultCode) (hc : code ∈ entryFaults) : ExecEffect i s (s.raise code i.opcode .none)
  | wrote (w : Writer) (hw : s.writer.Inv → w.Inv) : ExecEffect i s { s with writer := w }
  | attached (hi : i = .ropen) : ExecEffect i s { s with reader := ⟨0#8, 0, true, s.offered⟩ }
  | detached (hi : i = .rclose) : ExecEffect i s { s with reader := Reader.closed }
  | read (r : Reader) (v : Word) (hi : i ∈ [Instr.rbit, .rbyte, .rint, .ravail]) (ho : s.reader.isOpen = true)
      (hr : s.reader.Consumes r) : ExecEffect i s { s with reader := r, result := v }
  /-- The input ended inside a read command. -/
  | exhausted (r : Reader) (ho : s.reader.isOpen = true) (hr : s.reader.Consumes r) :
      ExecEffect i s (({ s with reader := r } : State).raise .streamExhausted i.opcode .none)
  | encoded (w : Writer) (v : Word) (u : Nat) (hi : i = .encode) (hw : s.writer.Inv → w.Inv) :
      ExecEffect i s { s with writer := w, result := v, undefDraws := u, workDraws := s.workDraws + 1 }
  | decoded (r : Reader) (dout : List Byte) (n : Word) (hi : i = .decode) (ho : s.reader.isOpen = true)
      (hr : s.reader.Consumes r) :
      ExecEffect i s { s with reader := r, dout := dout, dcount := n, result := n, workDraws := s.workDraws + 1 }
  /-- `DECODE` stopped in a phase. -/
  | decodeStopped (r : Reader) (dout : List Byte) (n : Word) (code : FaultCode) (phase : Phase) (ho : s.reader.isOpen = true)
      (hr : s.reader.Consumes r) (hc : code = .corruptStream ∨ code = .trieOverflow) (hp : phase ≠ .none) :
      ExecEffect i s (({ s with reader := r, dout := dout, dcount := n, workDraws := s.workDraws + 1 } : State).raise
        code i.opcode phase)

theorem Writer.opened_inv : (⟨0#8, 0, true, []⟩ : Writer).Inv := ⟨by decide, by decide, by decide⟩

theorem Writer.Inv.close {w : Writer} (h : w.Inv) : ({ w.flushPad with isOpen := false } : Writer).Inv :=
  ⟨h.flushPad.count_le, h.flushPad.buf_lt, fun _ => w.flushPad_count⟩

/-- A writer command that passes its stream check writes a run of bits. -/
theorem ExecEffect.wroteBits {i : Instr} {s : State} (ho : s.writer.isOpen = true) (bits : List Bool) :
    ExecEffect i s { s with writer := s.writer.writeAll bits } :=
  .wrote _ fun h => h.writeAll ho bits

/-- The effects of a read command. -/
theorem ExecEffect.of_finishRead {i : Instr} {s t : State} {n : Nat} (hi : i ∈ [Instr.rbit, .rbyte, .rint])
    (ho : s.reader.isOpen = true) (h : s.finishRead i.opcode (s.reader.readBits n) = .next t) : ExecEffect i s t := by
  obtain ⟨r, hr, ⟨v, rfl⟩ | ⟨rfl, -⟩⟩ := State.finishRead_effect h
  · exact .read r v (List.mem_append_left [Instr.ravail] hi) ho hr
  · exact .exhausted r ho hr

/-- A check at a command's entry either stops it or lets the rest run. -/
theorem ExecEffect.of_check {i : Instr} {s t : State} {p : Prop} [Decidable p] {code : FaultCode} {rest : Result}
    (hc : code ∈ entryFaults) (h : (if p then faulted s code i.opcode else rest) = .next t)
    (passed : ¬ p → rest = .next t → ExecEffect i s t) : ExecEffect i s t := by
  split at h
  · cases h; exact .stopped code hc
  · rename_i hp; exact passed hp h

/-- Everything `ENCODE` can do. -/
theorem ExecEffect.of_encode {s t : State} (h : execEncode s = .next t) : ExecEffect .encode s t := by
  refine .of_check (by decide) h fun ho h => .of_check (by decide) h fun _ h => ?_
  cases h
  exact .encoded _ _ _ rfl fun hw => hw.writeAll (by simpa using ho) _

/-- Everything `DECODE` can do. -/
theorem ExecEffect.of_decode {s t : State} (h : execDecode s = .next t) : ExecEffect .decode s t := by
  obtain ⟨-, rfl⟩ | ⟨ho, r, symbols, hr, -, rfl | ⟨code, phase, rfl, hp, -, hc⟩⟩ := execDecode_effect h
  · exact .stopped .notOpen (by decide)
  · exact .decoded r _ _ rfl ho hr
  · exact .decodeStopped r _ _ code phase ho hr (hc.imp And.left And.left) hp

/-- Everything a command can do. -/
theorem exec_effect {i : Instr} {s t : State} (h : exec i s = .next t) : ExecEffect i s t := by
  cases i with
  | nop => cases h; exact .unchanged (by decide)
  | srst => cases h; exact .reset rfl
  | wopen =>
    refine .of_check (by decide) h fun _ h => ?_
    cases h; exact .wrote _ fun _ => Writer.opened_inv
  | wbit b =>
    refine .of_check (by decide) h fun ho h => ?_
    cases h; exact .wroteBits (by simpa using ho) [b]
  | wbyte | wint =>
    refine .of_check (by decide) h fun ho h => ?_
    cases h; exact .wroteBits (by simpa using ho) _
  | wchar =>
    refine .of_check (by decide) h fun ho h => .of_check (by decide) h fun _ h => .of_check (by decide) h fun _ h => ?_
    cases h; exact .wroteBits (by simpa using ho) _
  | wflush =>
    refine .of_check (by decide) h fun _ h => ?_
    cases h; exact .wrote _ Writer.Inv.flushPad
  | wclose =>
    simp only [exec, execWclose] at h
    split at h <;> cases h
    · exact .wrote _ Writer.Inv.close
    · exact .unchanged (by decide)
  | ropen =>
    refine .of_check (by decide) h fun _ h => ?_
    cases h; exact .attached rfl
  | rbit | rbyte | rint =>
    exact .of_check (by decide) h fun ho h => .of_finishRead (by decide) (by simpa using ho) h
  | ravail =>
    refine .of_check (by decide) h fun ho h => ?_
    cases h; exact .read _ _ (by decide) (by simpa using ho) (.refl _)
  | rclose =>
    simp only [exec, execRclose] at h
    split at h <;> cases h
    · exact .detached rfl
    · exact .unchanged (by decide)
  | encode => exact .of_encode h
  | decode => exact .of_decode h

/-- No effect but a reset clears a recorded fault or changes `ERR` (60_exceptions.md rule R262). -/
theorem ExecEffect.keeps_fault {i : Instr} {s t : State} (h : ExecEffect i s t) (hf : s.fault = true) (hi : i ≠ .srst) :
    t.fault = true ∧ t.err = s.err := by
  cases h with
  | reset hi' => exact absurd hi' hi
  | unchanged | wrote | attached | detached | read | encoded | decoded => exact ⟨hf, rfl⟩
  | stopped | exhausted | decodeStopped => simp [hf]

/-- Settles O25: by the effects a command can have; those that raise leave `RESULT` alone. -/
theorem resultChangesOnlyByReadsAndCodec : Obligations.ResultChangesOnlyByReadsAndCodec := by
  intro i s t h hne
  cases exec_effect h with
  | reset hi => exact .inl hi
  | read r v hi => exact .inr ⟨List.mem_append_left [Instr.encode, .decode] hi, rfl, rfl⟩
  | encoded w v u hi => exact .inr ⟨by simp [hi], rfl, rfl⟩
  | decoded r dout n hi => exact .inr ⟨by simp [hi], rfl, rfl⟩
  | unchanged | wrote | attached | detached => exact absurd rfl hne
  | stopped | exhausted | decodeStopped => simp at hne

/-! ## The checks at a command's entry -/

theorem faulted_of_no_fault {s : State} (h : s.fault = false) (code : FaultCode) (opc : Byte) :
    faulted s code opc = .next { s with fault := true, err := ⟨code, opc, .none⟩ } := by
  rw [faulted, State.raise_of_no_fault h]

/-- Rule R42: on a closed writer the writing commands stop at their first check, whatever their operands. -/
theorem exec_of_writer_closed {i : Instr} {s : State} (h : s.writer.isOpen = false)
    (hi : i = .wint ∨ i = .wflush ∨ i = .encode ∨ (∃ b, i = .wbit b) ∨ (∃ v, i = .wbyte v) ∨ (∃ V W, i = .wchar V W)) :
    exec i s = faulted s .notOpen i.opcode := by
  have closed : (!s.writer.isOpen) = true := by simp [h]
  obtain rfl | rfl | rfl | ⟨b, rfl⟩ | ⟨v, rfl⟩ | ⟨V, W, rfl⟩ := hi <;> exact if_pos closed

/-- Rule R46: on a closed reader the reading commands stop at their first check. -/
theorem exec_of_reader_closed {i : Instr} {s : State} (h : s.reader.isOpen = false)
    (hi : i = .rbit ∨ i = .rbyte ∨ i = .rint ∨ i = .ravail ∨ i = .decode) : exec i s = faulted s .notOpen i.opcode := by
  have closed : (!s.reader.isOpen) = true := by simp [h]
  obtain rfl | rfl | rfl | rfl | rfl := hi <;> exact if_pos closed

theorem exec_wopen_of_open {s : State} (h : s.writer.isOpen = true) : exec .wopen s = faulted s .alreadyOpen opWOPEN :=
  if_pos h

theorem exec_ropen_of_open {s : State} (h : s.reader.isOpen = true) : exec .ropen s = faulted s .alreadyOpen opROPEN :=
  if_pos h

/-- Settles O23: the stream check is each command's first. -/
theorem streamStateIsCheckedFirst : Obligations.StreamStateIsCheckedFirst := by
  intro s i hf
  refine ⟨fun h hi => ?_, fun h hi => ?_, fun h hi => ?_, fun h hi => ?_⟩
  · rw [exec_of_writer_closed h hi, faulted_of_no_fault hf]
  · rw [exec_of_reader_closed h hi, faulted_of_no_fault hf]
  · rw [hi, exec_wopen_of_open h, faulted_of_no_fault hf, opWOPEN]
  · rw [hi, exec_ropen_of_open h, faulted_of_no_fault hf, opROPEN]

/-! ## Every command completes -/

theorem State.finishRead_completes (s : State) (opc : Byte) (x : Reading Word) : ∃ t, s.finishRead opc x = .next t := by
  cases x <;> exact ⟨_, rfl⟩

/-- A check that raises keeps a command complete. -/
theorem ite_faulted_completes {p : Prop} [Decidable p] {s : State} {code : FaultCode} {opc : Byte} {rest : Result}
    (h : ∃ t, rest = .next t) : ∃ t, (if p then faulted s code opc else rest) = .next t := by
  split
  · exact ⟨_, rfl⟩
  · exact h

theorem decodePhaseSymbols_completes (root : Trie) (n : Word) (s : State) : ∃ t, decodePhaseSymbols root n s = .next t := by
  simp only [decodePhaseSymbols, decodeFaulted]
  split <;> exact ⟨_, rfl⟩

theorem decodePhaseLength_completes (root : Trie) (s : State) : ∃ t, decodePhaseLength root s = .next t := by
  unfold decodePhaseLength
  split
  · exact ⟨_, rfl⟩
  · exact decodePhaseSymbols_completes _ _ _

theorem decodePhaseTrie_completes (s : State) : ∃ t, decodePhaseTrie s = .next t := by
  unfold decodePhaseTrie
  split
  · exact ⟨_, rfl⟩
  · exact ⟨_, rfl⟩
  · exact decodePhaseLength_completes _ _

/-- Rule R308: every command answers a next state. -/
theorem exec_completes (i : Instr) (s : State) : ∃ t, exec i s = .next t := by
  cases i with
  | nop | srst => exact ⟨_, rfl⟩
  | wopen | wbit | wbyte | wint | wflush | ropen | ravail => exact ite_faulted_completes ⟨_, rfl⟩
  | wchar => exact ite_faulted_completes (ite_faulted_completes (ite_faulted_completes ⟨_, rfl⟩))
  | wclose | rclose =>
    simp only [exec, execWclose, execRclose]
    split <;> exact ⟨_, rfl⟩
  | rbit | rbyte | rint => exact ite_faulted_completes (s.finishRead_completes _ _)
  | encode => exact ite_faulted_completes (ite_faulted_completes ⟨_, rfl⟩)
  | decode => exact ite_faulted_completes (decodePhaseTrie_completes _)

/-! ## What a step can do -/

theorem step_of_pending_nil {s : State} (h : s.pending = []) : step s = .next s := by
  simp [step, stepHost, h]

theorem step_of_pending_cons {s : State} {a : HostAction} {rest : List HostAction} (h : s.pending = a :: rest) :
    step s = perform a { s with pending := rest } := by
  simp [step, stepHost, h]

/-- The only word of `SRST` (30_encoding.md rule R94). -/
theorem eq_of_decode_srst {c : Word} (h : decode c = .ok .srst) : c = 0x00000001#32 := by
  unfold decode at h
  split at h
  · cases h
  · split at h
    · rename_i i _ hm
      cases h
      exact BitVec.and_allOnes.symm.trans hm
    · cases h

theorem registerAt_eq_cmd {offset : Nat} (h : registerAt offset = some .cmd) : offset = 0x00 := by
  simpa only [registerAt, apply_ite (· = some Register.cmd), Option.some.injEq, reduceCtorEq, ite_self, and_false,
    if_false_right, and_true] using h

/-- `CMD` is reached only by a 32-bit access at offset 0. -/
theorem accessTarget_eq_cmd {width offset : Nat} (h : accessTarget width offset = some .cmd) : width = 32 ∧ offset = 0x00 := by
  unfold accessTarget at h
  split at h
  · exact ⟨‹_›, registerAt_eq_cmd h⟩
  · cases h

/-- Everything issuing a word can do: an illegal word faults, the fault gate drops a command, or the command runs. -/
theorem issue_cases {c : Word} {s t : State} (h : issue c s = .next t) :
    t = s.raise .illegalCmd (opcodeField c) .none ∨ (s.fault = true ∧ t = s) ∨ ∃ i, decode c = .ok i ∧ ExecEffect i s t := by
  unfold issue at h
  split at h
  · cases h; exact .inl rfl
  · rename_i i hd
    split at h
    · rename_i hg
      simp only [Bool.and_eq_true] at hg
      cases h; exact .inr (.inl ⟨hg.1, rfl⟩)
    · exact .inr (.inr ⟨i, hd, exec_effect h⟩)

/-- An admitted command runs. -/
theorem issue_of_admitted {c : Word} {i : Instr} {s : State} (hd : decode c = .ok i)
    (ha : s.fault = false ∨ admittedWhileFaulted i = true) : issue c s = exec i s := by
  simp only [issue, hd]
  refine if_neg ?_
  rcases ha with h | h <;> simp [h]

theorem issue_completes (c : Word) (s : State) : ∃ t, issue c s = .next t := by
  unfold issue
  split
  · exact ⟨_, rfl⟩
  · split
    · exact ⟨_, rfl⟩
    · exact exec_completes _ s

/-- A write to `CMD` is the issued command, after which `BUSY` is 0 and nothing is on offer. -/
theorem writeCMD_of_issue {c : Word} {stream : List Byte} {s t : State}
    (h : issue c { s with busy := true, offered := stream } = .next t) : writeCMD c stream s = .next t.commandDone := by
  simp [writeCMD, h]

/-- The ways a step can leave `s`. -/
inductive StepEffect (s : State) : State → Prop
  | waited (hp : s.pending = []) : StepEffect s s
  | readRegister {width offset : Nat} (rest : List HostAction) (reg : Register) (hp : s.pending = .read width offset :: rest) :
      StepEffect s (hostRead { s with pending := rest } reg)
  /-- A write to `ARG` or `PADDR`. -/
  | wroteRegister {a : HostAction} (rest : List HostAction) (arg paddr : Word) (hp : s.pending = a :: rest) :
      StepEffect s { s with pending := rest, arg := arg, paddr := paddr }
  | wrotePDATA {a : HostAction} (rest : List HostAction) (data : Word) (hp : s.pending = a :: rest) :
      StepEffect s (writePDATA data { s with pending := rest })
  | ignoredWrite {a : HostAction} (rest : List HostAction) (hp : s.pending = a :: rest) : StepEffect s { s with pending := rest }
  | command {c : Word} {stream : List Byte} {t : State} (rest : List HostAction)
      (hp : s.pending = .write 32 0x00 c stream :: rest)
      (hi : issue c { s with pending := rest, busy := true, offered := stream } = .next t) : StepEffect s t.commandDone
  | reset (rest : List HostAction) (hp : s.pending = .hardReset :: rest) :
      StepEffect s ({ s with pending := rest } : State).hardReset

/-- Everything a write to a register can do. -/
theorem StepEffect.of_hostWrite {s t : State} {width offset : Nat} {data : Word} {stream : List Byte} {rest : List HostAction}
    {reg : Register} (hp : s.pending = .write width offset data stream :: rest) (hr : accessTarget width offset = some reg)
    (h : hostWrite { s with pending := rest } reg data stream = .next t) : StepEffect s t := by
  cases reg with
  | cmd =>
    obtain ⟨rfl, rfl⟩ := accessTarget_eq_cmd hr
    obtain ⟨u, hu⟩ := issue_completes data { s with pending := rest, busy := true, offered := stream }
    cases (writeCMD_of_issue hu).symm.trans h
    exact .command rest hp hu
  | arg => cases h; exact .wroteRegister rest data s.paddr hp
  | paddr => cases h; exact .wroteRegister rest s.arg data hp
  | pdata => cases h; exact .wrotePDATA rest data hp
  | status | err | result | wstate | rstate | dcount | id | pcap | reserved => cases h; exact .ignoredWrite rest hp

/-- Everything a step can do. -/
theorem step_effect {s t : State} (h : step s = .next t) : StepEffect s t := by
  cases hp : s.pending with
  | nil =>
    rw [step_of_pending_nil hp] at h
    cases h; exact .waited hp
  | cons a rest =>
    rw [step_of_pending_cons hp] at h
    cases a with
    | read width offset =>
      simp only [perform] at h
      split at h
      · cases h
      · split at h <;> cases h
        exact .readRegister rest _ hp
    | write width offset data stream =>
      simp only [perform] at h
      split at h
      · cases h
      · split at h
        · cases h
        · exact .of_hostWrite hp ‹_› h
    | hardReset => cases h; exact .reset rest hp

/-! ## Accesses that have no side effect -/

/-- The word a read returns does not depend on what the host does next. -/
theorem readValue_pending (s : State) (rest : List HostAction) (reg : Register) :
    readValue { s with pending := rest } reg = readValue s reg := by
  cases reg <;> rfl

/-- Rule R74: a read of any register but `PDATA` hands over its value and does nothing else. -/
theorem step_read_of_ne_pdata {s : State} {offset : Nat} {rest : List HostAction} {reg : Register} (hb : s.busy = false)
    (hp : s.pending = .read 32 offset :: rest) (hr : registerAt offset = some reg) (hne : reg ≠ .pdata) :
    step s = .next { s with pending := rest, hostReads := s.hostReads ++ [readValue s reg] } := by
  rw [step_read hb hp hr, hostRead, readValue_pending]
  cases reg with
  | pdata => exact absurd rfl hne
  | cmd | status | err | arg | result | wstate | rstate | dcount | paddr | id | pcap | reserved => rfl

/-- The registers a write does not change (rule R38). -/
def readOnlyRegisters : List Register := [.status, .err, .result, .wstate, .rstate, .dcount, .id, .pcap, .reserved]

theorem hostWrite_of_readOnly {reg : Register} (h : reg ∈ readOnlyRegisters) (s : State) (data : Word) (stream : List Byte) :
    hostWrite s reg data stream = .next s := by
  cases reg with
  | cmd | arg | paddr | pdata => exact absurd h (by decide)
  | status | err | result | wstate | rstate | dcount | id | pcap | reserved => rfl

/-- Settles O5: the gate admits the command, and a command completes. -/
theorem stepRunsTheDecodedCommand : Obligations.StepRunsTheDecodedCommand := by
  intro s c stream rest i hb hp hd ha
  have admitted : s.fault = false ∨ admittedWhileFaulted i = true := by
    rcases ha with h | rfl | rfl | rfl | rfl
    · exact .inl h
    all_goals exact .inr rfl
  let begun : State := { s with pending := rest, busy := true, offered := stream }
  obtain ⟨t, ht⟩ := exec_completes i begun
  have issued : issue c begun = .next t := (issue_of_admitted (s := begun) hd admitted).trans ht
  exact ⟨t, ht, (step_write hb hp rfl).trans (writeCMD_of_issue issued)⟩

/-- Settles O10: each offset listed is that of a register other than `PDATA`. -/
theorem registerReadsHaveNoSideEffect : Obligations.RegisterReadsHaveNoSideEffect := by
  intro s offset v rest hb hp hv
  have register : ∃ reg, registerAt offset = some reg ∧ reg ≠ .pdata ∧ readValue s reg = v := by
    simp only [List.mem_cons, Prod.mk.injEq, List.not_mem_nil, or_false] at hv
    obtain ⟨rfl, rfl⟩ | ⟨rfl, rfl⟩ | ⟨rfl, rfl⟩ | ⟨rfl, rfl⟩ | ⟨rfl, rfl⟩ | ⟨rfl, rfl⟩ | ⟨rfl, rfl⟩ | ⟨rfl, rfl⟩ | ⟨rfl, rfl⟩ |
      ⟨rfl, rfl⟩ | ⟨rfl, rfl⟩ | ⟨rfl, rfl⟩ | ⟨rfl, rfl⟩ | ⟨rfl, rfl⟩ | ⟨rfl, rfl⟩ := hv <;> exact ⟨_, rfl, by decide, rfl⟩
  obtain ⟨reg, hr, hne, rfl⟩ := register
  exact step_read_of_ne_pdata hb hp hr hne

/-- Settles O11: each offset listed is that of a read-only or reserved register. -/
theorem readOnlyAndReservedWritesAreIgnored : Obligations.ReadOnlyAndReservedWritesAreIgnored := by
  intro s offset rest hb
  constructor
  · intro d stream hp ho
    obtain ⟨reg, hr, hreg⟩ : ∃ reg, registerAt offset = some reg ∧ reg ∈ readOnlyRegisters := by
      simp only [List.mem_cons, List.not_mem_nil, or_false] at ho
      obtain rfl | rfl | rfl | rfl | rfl | rfl | rfl | rfl | rfl | rfl | rfl | rfl := ho <;> exact ⟨_, rfl, by decide⟩
    rw [step_write hb hp hr, hostWrite_of_readOnly hreg]
  · intro hp ho
    have hr : registerAt offset = some .reserved := by
      simp only [List.mem_cons, List.not_mem_nil, or_false] at ho
      obtain rfl | rfl | rfl | rfl := ho <;> rfl
    exact step_read_of_ne_pdata hb hp hr (by decide)

/-- Settles O12: `ARG` and `PADDR` are plain registers. -/
theorem argAndPaddrHoldWhatIsWritten : Obligations.ArgAndPaddrHoldWhatIsWritten := by
  intro s rest hb
  exact ⟨fun _ _ hp => step_write (reg := .arg) hb hp rfl, fun _ _ hp => step_write (reg := .paddr) hb hp rfl,
    fun hp => step_read_of_ne_pdata (reg := .arg) hb hp rfl (by decide),
    fun hp => step_read_of_ne_pdata (reg := .paddr) hb hp rfl (by decide)⟩

/-! ## A recorded fault -/

/-- A write to `PDATA` never touches a recorded fault (rule R262). -/
theorem writePDATA_keeps_fault {s : State} (hf : s.fault = true) (data : Word) :
    (writePDATA data s).fault = true ∧ (writePDATA data s).err = s.err := by
  unfold writePDATA
  split
  · exact ⟨hf, rfl⟩
  · simp [hf]

/-- Nor does a read. -/
theorem hostRead_keeps_fault {s : State} (hf : s.fault = true) (reg : Register) :
    (hostRead s reg).fault = true ∧ (hostRead s reg).err = s.err := by
  cases reg with
  | pdata =>
    simp only [hostRead, afterRead, afterReadPDATA]
    split
    · exact ⟨hf, rfl⟩
    · simp [hf]
  | cmd | status | err | arg | result | wstate | rstate | dcount | paddr | id | pcap | reserved => exact ⟨hf, rfl⟩

/-- Settles O22: by the effects a step can have; of the commands only `SRST` resets. -/
theorem recordedFaultIsSticky : Obligations.RecordedFaultIsSticky := by
  intro s t h hf
  cases step_effect h with
  | waited | wroteRegister | ignoredWrite => exact .inl ⟨hf, rfl⟩
  | readRegister rest reg => exact .inl (hostRead_keeps_fault (s := { s with pending := rest }) hf reg)
  | wrotePDATA rest data => exact .inl (writePDATA_keeps_fault (s := { s with pending := rest }) hf data)
  | reset rest hp => exact .inr (.inr ⟨rest, hp⟩)
  | @command c stream u rest hp hi =>
    rcases issue_cases hi with rfl | ⟨-, rfl⟩ | ⟨i, hd, hx⟩
    · left; simp [hf]
    · exact .inl ⟨hf, rfl⟩
    · by_cases hs : i = .srst
      · subst hs
        rw [eq_of_decode_srst hd] at hp
        exact .inr (.inl ⟨stream, rest, hp⟩)
      · exact .inl (hx.keeps_fault hf hs)

/-! ## What keeps the invariant -/

/-- A fault that can be recorded, with the phase its code asks for, keeps `ERR` in agreement with `STATUS.FAULT`. -/
theorem State.raise_err_inv {s : State} {code : FaultCode} {phase : Phase} (opc : Byte) (h : s.err.Inv s.fault)
    (hc : code ≠ .none ∧ code ≠ .cmdWhileBusy) (hp : phase ≠ .none ↔ code.ofDecodePhase = true) :
    (s.raise code opc phase).err.Inv (s.raise code opc phase).fault := by
  cases hf : s.fault with
  | true => rw [State.raise_of_fault hf]; exact h
  | false =>
    rw [State.raise_of_no_fault hf]
    exact ⟨by simp, fun _ => hc, hp⟩

theorem State.Inv.raise {s : State} {code : FaultCode} {phase : Phase} (h : s.Inv) (opc : Byte)
    (hc : code ≠ .none ∧ code ≠ .cmdWhileBusy) (hp : phase ≠ .none ↔ code.ofDecodePhase = true) :
    (s.raise code opc phase).Inv where
  not_busy := by simpa using h.not_busy
  none_offered := by simpa using h.none_offered
  err := State.raise_err_inv opc h.err hc hp
  cap_pos := by simpa using h.cap_pos
  writer := by simpa using h.writer
  reader := by simpa using h.reader
  pbuf := by simpa using h.pbuf

theorem State.raise_commandDone (s : State) (code : FaultCode) (opc : Byte) (phase : Phase) :
    (s.raise code opc phase).commandDone = s.commandDone.raise code opc phase := by
  unfold State.raise
  rw [State.commandDone_fault]
  split <;> rfl

theorem Memory.nil_inv (cap : Word) : Memory.Inv cap [] := ⟨rfl, fun _ _ => rfl⟩

/-- A write below `PAYLOAD_CAP` keeps `PBUF`'s invariant. -/
theorem Memory.Inv.write {cap : Word} {m : Memory} (h : m.Inv cap) {i : Nat} (hi : i < cap.toNat) (v : Byte) :
    Memory.Inv cap (m.write i v) where
  wf := Memory.write_wf i v h.wf
  bound j hj := by rw [Memory.read_write_other m v (by omega)]; exact h.bound j hj

theorem State.paddrInRange_iff {s : State} : s.paddrInRange = true ↔ s.paddr.toNat < s.payloadCap.toNat := by
  simp [State.paddrInRange, BitVec.lt_def]

/-- `PBUF_RANGE` can be recorded, and has no phase. -/
theorem State.Inv.raise_pbufRange {s : State} (h : s.Inv) : (s.raise .pbufRange opcPDATA .none).Inv :=
  h.raise opcPDATA (by decide) (by decide)

theorem State.Inv.writePDATA {s : State} (h : s.Inv) (data : Word) : (writePDATA data s).Inv := by
  unfold Machine.writePDATA
  split
  · rename_i hr
    exact { h with pbuf := h.pbuf.write (State.paddrInRange_iff.mp hr) _ }
  · exact h.raise_pbufRange

theorem State.Inv.hostRead {s : State} (h : s.Inv) (reg : Register) : (hostRead s reg).Inv := by
  have after : (afterRead s reg).Inv := by
    cases reg with
    | pdata =>
      simp only [afterRead, afterReadPDATA]
      split
      · exact { h with }
      · exact h.raise_pbufRange
    | cmd | status | err | arg | result | wstate | rstate | dcount | paddr | id | pcap | reserved => exact h
  exact { after with }

theorem ErrRecord.clear_inv : ErrRecord.clear.Inv false := ⟨fun _ => rfl, by decide, by decide⟩

/-- The state after reset meets the invariant. -/
theorem State.resetWith_inv {cap : Word} (h : 0 < cap.toNat) : (State.resetWith cap).Inv where
  not_busy := rfl
  none_offered := rfl
  err := ErrRecord.clear_inv
  cap_pos := h
  writer := Writer.closed_inv
  reader := Reader.closed_inv
  pbuf := Memory.nil_inv cap

theorem State.Inv.hardReset {s : State} (h : s.Inv) : s.hardReset.Inv :=
  { State.resetWith_inv h.cap_pos with }

/-- `SRST` keeps `PBUF`, and with it `PBUF`'s invariant. -/
theorem State.Inv.softReset {s : State} (h : s.Inv) : s.softReset.Inv :=
  { State.resetWith_inv h.cap_pos with pbuf := h.pbuf }

theorem Reader.attached_inv (rin : List Byte) : (⟨0#8, 0, true, rin⟩ : Reader).Inv := ⟨by simp, by simp⟩

/-- Every code a command raises at its entry can be recorded, and has no phase. -/
theorem entryFaults_recordable {code : FaultCode} (h : code ∈ entryFaults) :
    (code ≠ .none ∧ code ≠ .cmdWhileBusy) ∧ code.ofDecodePhase = false := by
  simp only [entryFaults, List.mem_cons, List.not_mem_nil, or_false] at h
  rcases h with rfl | rfl | rfl | rfl <;> decide

/-- A command keeps the invariant that holds once it is done: `BUSY` is 1 and bytes may be on offer only while it runs. -/
theorem ExecEffect.keeps_inv {i : Instr} {s t : State} (h : ExecEffect i s t) (hs : s.commandDone.Inv) : t.commandDone.Inv := by
  cases h with
  | unchanged => exact hs
  | reset => exact hs.softReset
  | stopped code hc =>
    obtain ⟨hr, hp⟩ := entryFaults_recordable hc
    rw [State.raise_commandDone]
    exact hs.raise _ hr (by simp [hp])
  | wrote w hw => exact { hs with writer := hw hs.writer }
  | attached => exact { hs with reader := Reader.attached_inv _ }
  | detached => exact { hs with reader := Reader.closed_inv }
  | read r v _ ho hr => exact { hs with reader := hr.inv hs.reader ho }
  | exhausted r ho hr =>
    have consumed : ({ s with reader := r } : State).commandDone.Inv := { hs with reader := hr.inv hs.reader ho }
    rw [State.raise_commandDone]
    exact consumed.raise _ (by decide) (by decide)
  | encoded w v u _ hw => exact { hs with writer := hw hs.writer }
  | decoded r dout n _ ho hr => exact { hs with reader := hr.inv hs.reader ho }
  | decodeStopped r dout n code phase ho hr hc hp =>
    have consumed : ({ s with reader := r, dout := dout, dcount := n, workDraws := s.workDraws + 1 } : State).commandDone.Inv :=
      { hs with reader := hr.inv hs.reader ho }
    rw [State.raise_commandDone]
    rcases hc with rfl | rfl <;> exact consumed.raise _ (by decide) (by simpa [FaultCode.ofDecodePhase] using hp)

/-- Settles O58: by the effects a step can have. -/
theorem stepKeepsStateInvariant : Obligations.StepKeepsStateInvariant := by
  intro s t hs h
  have next (rest : List HostAction) : ({ s with pending := rest } : State).Inv := { hs with }
  cases step_effect h with
  | waited => exact hs
  | readRegister rest reg => exact (next rest).hostRead reg
  | wroteRegister => exact { hs with }
  | wrotePDATA rest data => exact (next rest).writePDATA data
  | ignoredWrite rest => exact next rest
  | reset rest => exact (next rest).hardReset
  | @command c stream u rest _ hi =>
    have begun : ({ s with pending := rest, busy := true, offered := stream } : State).commandDone.Inv :=
      { hs with not_busy := rfl, none_offered := rfl }
    rcases issue_cases hi with rfl | ⟨-, rfl⟩ | ⟨i, -, hx⟩
    · rw [State.raise_commandDone]
      exact begun.raise _ (by decide) (by decide)
    · exact begun
    · exact hx.keeps_inv begun

/-- `PAYLOAD_CAP` lies in the range of rule R5. -/
theorem payloadCap_bounds : 1 ≤ Config.payloadCap.toNat ∧ Config.payloadCap.toNat ≤ 2 ^ 32 - 1 := by
  have := Config.payloadCapSlack.isLt
  rw [Config.payloadCap, BitVec.toNat_ofNat, Nat.mod_eq_of_lt (by omega)]
  omega

/-- Settles O59. -/
theorem resetMeetsStateInvariant : Obligations.ResetMeetsStateInvariant :=
  ⟨State.resetWith_inv payloadCap_bounds.1, fun _ h => State.resetWith_inv h⟩

theorem State.resetWith_statusWord (cap : Word) : (State.resetWith cap).statusWord = 0#32 := by
  have flags : flagBit false 0 ||| flagBit false 1 ||| flagBit false 2 ||| flagBit false 3 = 0#32 := by decide
  exact flags

theorem ErrRecord.clear_toWord : ErrRecord.clear.toWord = 0#32 := by decide

theorem Writer.closed_stateWord : Writer.closed.stateWord = 0#32 := by decide

theorem Reader.closed_stateWord : Reader.closed.stateWord = 0#32 := by decide

/-- Settles O17: each item is a field of the reset record; the free capacity's type gives its range. -/
theorem resetValues : Obligations.ResetValues :=
  ⟨fun cap => ⟨State.resetWith_statusWord cap, ErrRecord.clear_toWord, rfl, rfl, Writer.closed_stateWord, rfl,
    Reader.closed_stateWord, rfl, rfl, rfl, rfl, rfl, fun _ => rfl, rfl, rfl, rfl, rfl⟩,
    Config.payloadCap, rfl, payloadCap_bounds⟩

/-! ## The working storage -/

/-- Whenever the first outcome is a next state, the second is that state with some value of `workDraws`. -/
def SameButWork (x y : Result) : Prop := ∀ t, x = .next t → ∃ m, y = .next { t with workDraws := m }

theorem SameButWork.next (t : State) (m : Nat) : SameButWork (.next t) (.next { t with workDraws := m }) := by
  rintro _ ⟨⟩
  exact ⟨m, rfl⟩

theorem State.raise_workDraws_update (s : State) (m : Nat) (code : FaultCode) (opc : Byte) (phase : Phase) :
    ({ s with workDraws := m } : State).raise code opc phase = { s.raise code opc phase with workDraws := m } := by
  unfold State.raise
  split <;> rfl

theorem SameButWork.raise (s : State) (m : Nat) (code : FaultCode) (opc : Byte) (phase : Phase) :
    SameButWork (.next (s.raise code opc phase)) (.next (({ s with workDraws := m } : State).raise code opc phase)) :=
  State.raise_workDraws_update s m code opc phase ▸ .next _ m

theorem SameButWork.ite {p : Prop} [Decidable p] {x x' y y' : Result} (hx : SameButWork x x') (hy : SameButWork y y') :
    SameButWork (if p then x else y) (if p then x' else y') := by
  split
  · exact hx
  · exact hy

/-- A check at a command's entry reads no working storage. -/
theorem SameButWork.check {p : Prop} [Decidable p] (s : State) (m : Nat) {code : FaultCode} {opc : Byte} {y y' : Result}
    (hy : SameButWork y y') :
    SameButWork (if p then faulted s code opc else y) (if p then faulted { s with workDraws := m } code opc else y') :=
  .ite (.raise s m code opc .none) hy

theorem SameButWork.wrote (s : State) (m : Nat) (w : Writer) :
    SameButWork (.next { s with writer := w }) (.next { s with writer := w, workDraws := m }) :=
  .next { s with writer := w } m

theorem finishRead_ignores_work (s : State) (m : Nat) (opc : Byte) (x : Reading Word) :
    SameButWork (s.finishRead opc x) (({ s with workDraws := m } : State).finishRead opc x) := by
  cases x with
  | got v r => exact .next { s with reader := r, result := v } m
  | ended r => exact .raise { s with reader := r } m .streamExhausted opc .none

theorem decodePhaseSymbols_ignores_work (root : Trie) (n : Word) (s : State) (m : Nat) :
    SameButWork (decodePhaseSymbols root n s) (decodePhaseSymbols root n { s with workDraws := m }) :=
  .ite (.next _ m) (.raise _ m .corruptStream opDECODE .symbols)

theorem decodePhaseLength_ignores_work (root : Trie) (s : State) (m : Nat) :
    SameButWork (decodePhaseLength root s) (decodePhaseLength root { s with workDraws := m }) := by
  simp only [decodePhaseLength]
  cases s.reader.readBits 32 with
  | ended r => exact .raise { s with reader := r } m .corruptStream opDECODE .length
  | got n r => exact decodePhaseSymbols_ignores_work root n { s with reader := r } m

theorem decodePhaseTrie_ignores_work (s : State) (m : Nat) :
    SameButWork (decodePhaseTrie s) (decodePhaseTrie { s with workDraws := m }) := by
  simp only [decodePhaseTrie]
  cases readTrie Config.nodeCap 0 s.reader with
  | ended r => exact .raise { s with reader := r } m .corruptStream opDECODE .trie
  | overflow r => exact .raise { s with reader := r } m .trieOverflow opDECODE .trie
  | got root ntop r => exact decodePhaseLength_ignores_work root { s with reader := r } m

theorem exec_ignores_work (i : Instr) (s : State) (m : Nat) : SameButWork (exec i s) (exec i { s with workDraws := m }) := by
  cases i with
  | nop => exact .next s m
  | srst => exact .next s.softReset (m + 1)
  | wopen | wbit | wbyte | wint | wflush => exact .check s m (.wrote s m _)
  | wchar => exact .check s m (.check s m (.check s m (.wrote s m _)))
  | ropen | ravail => exact .check s m (.next _ m)
  | wclose | rclose => exact .ite (.next _ m) (.next s m)
  | rbit | rbyte | rint => exact .check s m (finishRead_ignores_work s m _ _)
  | encode => exact .check s m (.check s m (.next _ (m + 1)))
  | decode => exact .check s m (decodePhaseTrie_ignores_work _ (m + 1))

theorem issue_ignores_work (c : Word) (s : State) (m : Nat) : SameButWork (issue c s) (issue c { s with workDraws := m }) := by
  simp only [issue]
  cases decode c with
  | error e => exact .raise s m .illegalCmd (opcodeField c) .none
  | ok i => exact .ite (.next s m) (exec_ignores_work i s m)

theorem writeCMD_ignores_work (c : Word) (stream : List Byte) (s : State) (m : Nat) :
    SameButWork (writeCMD c stream s) (writeCMD c stream { s with workDraws := m }) := by
  obtain ⟨u, hu⟩ := issue_completes c { s with busy := true, offered := stream }
  obtain ⟨k, hk⟩ := issue_ignores_work c _ m u hu
  rw [writeCMD_of_issue hu, writeCMD_of_issue hk]
  exact .next u.commandDone k

theorem writePDATA_workDraws_update (data : Word) (s : State) (m : Nat) :
    writePDATA data { s with workDraws := m } = { writePDATA data s with workDraws := m } := by
  have range : ({ s with workDraws := m } : State).paddrInRange = s.paddrInRange := rfl
  unfold writePDATA
  rw [range]
  split
  · rfl
  · exact State.raise_workDraws_update s m _ _ _

theorem hostRead_workDraws_update (s : State) (m : Nat) (reg : Register) :
    hostRead { s with workDraws := m } reg = { hostRead s reg with workDraws := m } := by
  cases reg with
  | pdata =>
    have range : ({ s with workDraws := m } : State).paddrInRange = s.paddrInRange := rfl
    simp only [hostRead, afterRead, afterReadPDATA]
    rw [range]
    split
    · rfl
    · rw [State.raise_workDraws_update]; rfl
  | cmd | status | err | arg | result | wstate | rstate | dcount | paddr | id | pcap | reserved => rfl

theorem hostWrite_ignores_work (s : State) (reg : Register) (data : Word) (stream : List Byte) (m : Nat) :
    SameButWork (hostWrite s reg data stream) (hostWrite { s with workDraws := m } reg data stream) := by
  cases reg with
  | cmd => exact writeCMD_ignores_work data stream s m
  | arg => exact .next { s with arg := data } m
  | paddr => exact .next { s with paddr := data } m
  | pdata =>
    simp only [hostWrite, writePDATA_workDraws_update]
    exact .next (writePDATA data s) m
  | status | err | result | wstate | rstate | dcount | id | pcap | reserved => exact .next s m

theorem SameButWork.refused (r : Refusal) : SameButWork (.refused r) (.refused r) := by
  rintro _ ⟨⟩

theorem perform_ignores_work (a : HostAction) (s : State) (m : Nat) :
    SameButWork (perform a s) (perform a { s with workDraws := m }) := by
  cases a with
  | read width offset =>
    simp only [perform, hostRead_workDraws_update]
    cases accessTarget width offset with
    | none => exact .refused _
    | some reg => exact .ite (.refused _) (.next (hostRead s reg) m)
  | write width offset data stream =>
    simp only [perform]
    cases accessTarget width offset with
    | none => exact .refused _
    | some reg => exact .ite (.refused _) (hostWrite_ignores_work s reg data stream m)
  | hardReset => exact .next s.hardReset (m + 1)

theorem step_ignores_work (s : State) (m : Nat) : SameButWork (step s) (step { s with workDraws := m }) := by
  cases hp : s.pending with
  | nil =>
    rw [step_of_pending_nil hp, ← hp, step_of_pending_nil (s := { s with workDraws := m }) hp]
    exact .next s m
  | cons a rest =>
    rw [step_of_pending_cons hp, ← hp, step_of_pending_cons (s := { s with workDraws := m }) hp]
    exact perform_ignores_work a { s with pending := rest } m

/-- Settles O57: no operation reads the counter, and each hands it on or advances it. -/
theorem workingStorageNeverMatters : Obligations.WorkingStorageNeverMatters :=
  fun s t n h => step_ignores_work s n t h

end Sys2Proof.Machine

/-! # Proofs: memory and the operands (20_memory.md)

The register port's accesses, the `PDATA` port, what no command writes, and the write widths. -/

namespace Sys2Proof.Machine

/-! ## Accesses that have a step (rule R61) -/

theorem registerAt_isSome_iff {offset : Nat} : (registerAt offset).isSome = true ↔ offset % 4 = 0 ∧ offset ≤ 0x3C := by
  simp only [registerAt, apply_ite (Option.isSome · = true), Option.isSome_some, Option.isSome_none, if_true_left,
    Bool.false_eq_true, if_false_right, and_true]
  omega

theorem accessTarget_isSome_iff {width offset : Nat} :
    (accessTarget width offset).isSome = true ↔ width = 32 ∧ offset % 4 = 0 ∧ offset ≤ 0x3C := by
  rw [← registerAt_isSome_iff, accessTarget]
  split <;> simp [*]

/-- An access that reaches no register has no step. -/
theorem perform_of_no_target {width offset : Nat} {a : HostAction}
    (ha : a = .read width offset ∨ ∃ d stream, a = .write width offset d stream)
    (hn : accessTarget width offset = none) (s : State) : perform a s = .refused (.illFormedAccess width offset) := by
  obtain rfl | ⟨d, stream, rfl⟩ := ha <;> simp [perform, hn]

/-- A write to any register has a next state: a command written to `CMD` completes. -/
theorem hostWrite_completes (s : State) (reg : Register) (data : Word) (stream : List Byte) :
    ∃ t, hostWrite s reg data stream = .next t := by
  cases reg with
  | cmd =>
    obtain ⟨t, ht⟩ := issue_completes data { s with busy := true, offered := stream }
    exact ⟨_, writeCMD_of_issue ht⟩
  | status | err | arg | result | wstate | rstate | dcount | paddr | pdata | id | pcap | reserved => exact ⟨_, rfl⟩

/-- Settles O8: the accesses listed are those that reach a register, and an idle block answers each of those. -/
theorem onlyAlignedWordAccessesHaveAStep : Obligations.OnlyAlignedWordAccessesHaveAStep := by
  intro s width offset a rest hb hp ha
  rw [← accessTarget_isSome_iff]
  constructor
  · intro h
    rw [step_of_pending_cons hp, perform_of_no_target ha (by simpa using h)]
  · intro h
    obtain ⟨reg, hr⟩ := Option.isSome_iff_exists.mp h
    obtain rfl | ⟨d, stream, rfl⟩ := ha
    · exact ⟨_, step_read hb hp hr⟩
    · rw [step_write hb hp hr]
      exact hostWrite_completes _ reg d stream

/-! ## The `PDATA` port (rule R63) -/

theorem writePDATA_of_lt {s : State} (h : s.paddr.toNat < s.payloadCap.toNat) (d : Word) :
    writePDATA d s = { s with pbuf := s.pbuf.write s.paddr.toNat (d.extractLsb' 0 8), paddr := s.paddr + 1#32 } := by
  rw [writePDATA, if_pos (State.paddrInRange_iff.mpr h), BitVec.setWidth_eq_extractLsb' (by decide)]

theorem writePDATA_of_ge {s : State} (h : s.payloadCap.toNat ≤ s.paddr.toNat) (d : Word) :
    writePDATA d s = s.raise .pbufRange opcPDATA .none :=
  if_neg (by rw [State.paddrInRange_iff]; omega)

theorem hostRead_pdata_of_lt {s : State} (h : s.paddr.toNat < s.payloadCap.toNat) :
    hostRead s .pdata = { s with
      paddr := s.paddr + 1#32
      undefDraws := s.undefDrawsAfter (s.pbufWritten s.paddr.toNat)
      hostReads := s.hostReads ++ [(s.pbufByte s.paddr.toNat).setWidth 32] } := by
  simp only [hostRead, afterRead, afterReadPDATA, readValue, readPDATA, if_pos (State.paddrInRange_iff.mpr h)]

theorem hostRead_pdata_of_ge {s : State} (h : s.payloadCap.toNat ≤ s.paddr.toNat) :
    hostRead s .pdata = { s.raise .pbufRange opcPDATA .none with hostReads := s.hostReads ++ [0#32] } := by
  have out : ¬ s.paddrInRange = true := by rw [State.paddrInRange_iff]; omega
  simp only [hostRead, afterRead, afterReadPDATA, readValue, readPDATA, if_neg out]

/-- Below `PAYLOAD_CAP`, `PADDR` does not wrap. -/
theorem State.paddr_add_one_toNat {s : State} (h : s.paddr.toNat < s.payloadCap.toNat) :
    (s.paddr + 1#32).toNat = s.paddr.toNat + 1 := by
  bv_omega

/-- A written byte reads as itself, and reading it draws no free value (rule R62). -/
theorem State.pbufByte_of_written {s : State} {i : Nat} {y : Byte} (h : s.pbuf.read i = some y) :
    s.pbufByte i = y ∧ s.undefDrawsAfter (s.pbufWritten i) = s.undefDraws := by
  simp [State.pbufByte, State.pbufWritten, State.undefDrawsAfter, h]

/-- Settles O13: a `PDATA` write and a `PDATA` read, each with `PADDR` below `PAYLOAD_CAP` and not. -/
theorem pdataMovesOneByte : Obligations.PdataMovesOneByte := by
  intro s rest hb
  let s' : State := { s with pending := rest }
  refine ⟨fun d stream hp => ⟨fun h => ?_, fun h => ?_⟩, fun hp => ⟨fun h => ?_, fun h => ?_⟩⟩
  · refine ⟨s.pbuf.write s.paddr.toNat (d.extractLsb' 0 8), s.paddr + 1#32, ?_, State.paddr_add_one_toNat h,
      Memory.read_write_same _ _ _, fun j hj => Memory.read_write_other _ _ hj⟩
    rw [step_write hb hp rfl, hostWrite, writePDATA_of_lt (s := s') h]
  · rw [step_write hb hp rfl, hostWrite, writePDATA_of_ge (s := s') h, State.raise, opcPDATA]
  · refine ⟨s.pbufByte s.paddr.toNat, s.paddr + 1#32, s.undefDrawsAfter (s.pbufWritten s.paddr.toNat),
      State.paddr_add_one_toNat h, ?_, fun y hy => State.pbufByte_of_written hy⟩
    rw [step_read hb hp rfl, hostRead_pdata_of_lt (s := s') h]
    rfl
  · rw [step_read hb hp rfl, hostRead_pdata_of_ge (s := s') h, State.raise, opcPDATA]
    split <;> rfl

/-! ## What no command writes (rules R62, R29, R32 and R36) -/

/-- No effect of a command writes `PBUF` or `PCAP`, and only a reset writes `ARG` and `PADDR`. -/
theorem ExecEffect.keeps_pbuf_and_operands {i : Instr} {s t : State} (h : ExecEffect i s t) :
    t.pbuf = s.pbuf ∧ t.payloadCap = s.payloadCap ∧ (i ≠ .srst → t.arg = s.arg ∧ t.paddr = s.paddr) := by
  cases h with
  | reset hi => exact ⟨rfl, rfl, fun hne => absurd hi hne⟩
  | unchanged | wrote | attached | detached | read | encoded | decoded => exact ⟨rfl, rfl, fun _ => ⟨rfl, rfl⟩⟩
  | stopped | exhausted | decodeStopped => simp

/-- Settles O26: by the effects a command can have. -/
theorem noCommandWritesPbufOrOperands : Obligations.NoCommandWritesPbufOrOperands := by
  intro i s t h
  obtain ⟨hpbuf, hcap, hoperands⟩ := (exec_effect h).keeps_pbuf_and_operands
  exact ⟨fun a => by rw [hpbuf], hcap, hoperands⟩

/-! ## Writing on an open writer (rules R122 to R124) -/

theorem exec_wbit_of_open {s : State} (h : s.writer.isOpen = true) (b : Bool) :
    exec (.wbit b) s = .next { s with writer := s.writer.writeBit b } :=
  if_neg (by simp [h])

theorem exec_wbyte_of_open {s : State} (h : s.writer.isOpen = true) (v : Byte) :
    exec (.wbyte v) s = .next { s with writer := s.writer.writeAll (bitsMsb v 8) } :=
  if_neg (by simp [h])

/-- `WCHAR` with a legal width and a value that fits it. -/
theorem exec_wchar_of_open {s : State} (h : s.writer.isOpen = true) {V : BitVec 16} {W : BitVec 5}
    (hw : widthLegal W = true) (hv : valueFits V W = true) :
    exec (.wchar V W) s = .next { s with writer := s.writer.writeAll (bitsMsb V W.toNat) } := by
  simp [exec, execWchar, Writer.writeBits_eq, h, hw, hv]

/-- A value of at most `W` bits, zero-extended, fits width `W`. -/
theorem valueFits_setWidth {n : Nat} (v : BitVec n) (W : BitVec 5) (h : n ≤ W.toNat) : valueFits (v.setWidth 16) W = true := by
  have small : (v.setWidth 16).toNat < 2 ^ W.toNat := by
    rw [BitVec.toNat_setWidth]
    exact Nat.lt_of_le_of_lt (Nat.mod_le _ _) (Nat.lt_of_lt_of_le v.isLt (Nat.pow_le_pow_right (by decide) h))
  simpa [valueFits] using small

/-- Zero extension does not change the bits of a value. -/
theorem bitsMsb_setWidth {w m n : Nat} (v : BitVec w) (h : n ≤ m) : bitsMsb (v.setWidth m) n = bitsMsb v n :=
  bitsMsb_congr fun j hj => by
    have : j < m := by omega
    simp [this]

/-- Settles O32: each side writes the same run of bits. -/
theorem writeWidthsAgree : Obligations.WriteWidthsAgree := by
  intro s h
  refine ⟨fun v => ?_, fun b => ?_, fun v => ?_⟩
  · have hv : valueFits (v.setWidth 16) 8#5 = true := valueFits_setWidth v _ (by decide)
    have bits : bitsMsb (v.setWidth 16) (8#5 : BitVec 5).toNat = bitsMsb v 8 := bitsMsb_setWidth v (by decide)
    rw [exec_wbyte_of_open h, exec_wchar_of_open h (by decide) hv, bits]
  · have hv : valueFits ((BitVec.ofBool b).setWidth 16) 1#5 = true := valueFits_setWidth _ _ (by decide)
    have bits : bitsMsb ((BitVec.ofBool b).setWidth 16) (1#5 : BitVec 5).toNat = [b] := by cases b <;> rfl
    rw [exec_wbit_of_open h, exec_wchar_of_open h (by decide) hv, bits, Writer.writeAll_cons, Writer.writeAll_nil]
  · exact ⟨_, _, _, _, _, _, _, _, exec_wbit_of_open h _, exec_wbit_of_open (by simp [h]) _, exec_wbit_of_open (by simp [h]) _,
      exec_wbit_of_open (by simp [h]) _, exec_wbit_of_open (by simp [h]) _, exec_wbit_of_open (by simp [h]) _,
      exec_wbit_of_open (by simp [h]) _, exec_wbit_of_open (by simp [h]) _,
      (exec_wbyte_of_open h v).trans (by simp only [bitsMsb, Writer.writeAll_cons, Writer.writeAll_nil])⟩

end Sys2Proof.Machine

/-! # Proofs: the command word (30_encoding.md)

Inside its mask a command's word is the bare opcode (rule R94), outside it the operands (rule R92).  So the words that decode to a
command are its one encoding; the obligations, the fault gate's among them, follow. -/

namespace Sys2Proof

/-! ## Matching a row of rule R94 -/

/-- `(c & MASK) = MATCH` for the row of `i` (rule R94); the operands of `i` play no part. -/
def Instr.Matches (i : Instr) (c : Word) : Prop := c &&& i.mask = i.opcode.setWidth 32

/-- `i` with the operands the word `c` has for it (rule R92). -/
def Instr.withOperandsOf (i : Instr) (c : Word) : Instr :=
  match i with
  | .wbit _ => .wbit (bitOperand c)
  | .wbyte _ => .wbyte (byteOperand c)
  | .wchar _ _ => .wchar (charOperand c) (widthOperand c)
  | .nop | .srst | .wopen | .wint | .wflush | .wclose | .ropen | .rbit | .rbyte | .rint | .ravail | .rclose | .encode
  | .decode => i

@[simp] theorem Instr.mask_withOperandsOf (i : Instr) (c : Word) : (i.withOperandsOf c).mask = i.mask := by cases i <;> rfl

@[simp] theorem Instr.opcode_withOperandsOf (i : Instr) (c : Word) : (i.withOperandsOf c).opcode = i.opcode := by cases i <;> rfl

@[simp] theorem Instr.withOperandsOf_idem (i : Instr) (c : Word) : (i.withOperandsOf c).withOperandsOf c = i.withOperandsOf c := by
  cases i <;> rfl

theorem Instr.matches_withOperandsOf {i : Instr} {c : Word} : (i.withOperandsOf c).Matches c ↔ i.Matches c := by
  simp [Instr.Matches]

/-- Every mask covers the opcode field, so a matching word has the row's opcode. -/
theorem Instr.Matches.opcodeField_eq {i : Instr} {c : Word} (h : i.Matches c) : opcodeField c = i.opcode := by
  have low : i.mask.extractLsb' 0 8 = BitVec.allOnes 8 := by unfold Instr.mask; split <;> decide
  calc opcodeField c = (c &&& i.mask).extractLsb' 0 8 := by rw [BitVec.extractLsb'_and, low, BitVec.and_allOnes, opcodeField]
    _ = (i.opcode.setWidth 32).extractLsb' 0 8 := by rw [h]
    _ = i.opcode := by simpa using Machine.extractLsb'_field_same i.opcode (lo := 0) (by decide)

/-- The row an assigned opcode selects is its command's. -/
theorem commandOf_opcode (i : Instr) (c : Word) : commandOf i.opcode c = some (i.withOperandsOf c) := by
  cases i <;> rfl

/-! ## Decoding and encoding -/

/-- Rule R95: `c` decodes to `i` when it matches the row of `i` and has the operands of `i`. -/
theorem decode_eq_ok_iff_matches {c : Word} {i : Instr} : decode c = .ok i ↔ i.Matches c ∧ i.withOperandsOf c = i := by
  constructor
  · intro h
    unfold decode at h
    split at h
    · cases h
    · rename_i j hj
      split at h
      · rename_i hm
        cases h
        have row := commandOf_opcode i c
        rw [← Instr.Matches.opcodeField_eq hm, hj] at row
        exact ⟨hm, (Option.some.inj row).symm⟩
      · cases h
  · rintro ⟨hm, ho⟩
    have row : commandOf (opcodeField c) c = some i := by rw [hm.opcodeField_eq, commandOf_opcode, ho]
    simp only [decode, row]
    exact if_pos hm

/-- A word decodes when it matches some row. -/
theorem exists_decode_iff {c : Word} : (∃ i, decode c = .ok i) ↔ ∃ i : Instr, i.Matches c := by
  simp only [decode_eq_ok_iff_matches]
  constructor
  · rintro ⟨i, hm, -⟩
    exact ⟨i, hm⟩
  · rintro ⟨i, hm⟩
    exact ⟨i.withOperandsOf c, Instr.matches_withOperandsOf.mpr hm, i.withOperandsOf_idem c⟩

/-- The word of a command matches its row. -/
theorem Instr.matches_encode (i : Instr) : i.Matches (Sys2Proof.encode i) := by
  cases i with
  | nop => exact Laws.FormatMatch.nop
  | srst => exact Laws.FormatMatch.srst
  | wopen => exact Laws.FormatMatch.wopen
  | wbit b => exact Laws.FormatMatch.wbit b
  | wbyte v => exact Laws.FormatMatch.wbyte v
  | wchar V W => exact Laws.FormatMatch.wchar V W
  | wint => exact Laws.FormatMatch.wint
  | wflush => exact Laws.FormatMatch.wflush
  | wclose => exact Laws.FormatMatch.wclose
  | ropen => exact Laws.FormatMatch.ropen
  | rbit => exact Laws.FormatMatch.rbit
  | rbyte => exact Laws.FormatMatch.rbyte
  | rint => exact Laws.FormatMatch.rint
  | ravail => exact Laws.FormatMatch.ravail
  | rclose => exact Laws.FormatMatch.rclose
  | encode => exact Laws.FormatMatch.encode
  | decode => exact Laws.FormatMatch.decode

/-- A field at bit 8 or above does not meet the opcode field. -/
theorem extractLsb'_opcode_disjoint (op : Byte) {start len : Nat} (h : 8 ≤ start) :
    (op.setWidth 32 : Word).extractLsb' start len = 0#len := by
  simpa using Machine.extractLsb'_field_disjoint op (lo := 0) (start := start) (len := len) (.inr (by omega))

/-- The operand fields of a command's word hold its operands: no field of rule R92 overlaps another or the opcode. -/
theorem Instr.withOperandsOf_encode (i : Instr) : i.withOperandsOf (Sys2Proof.encode i) = i := by
  cases i with
  | wbit b => cases b <;> rfl
  | wbyte v =>
    simp (disch := decide) only [Instr.withOperandsOf, byteOperand, Sys2Proof.encode, Instr.operandBits, BitVec.extractLsb'_or,
      extractLsb'_opcode_disjoint, Machine.extractLsb'_field_same, BitVec.zero_or]
  | wchar V W =>
    simp (disch := decide) only [Instr.withOperandsOf, charOperand, widthOperand, Sys2Proof.encode, Instr.operandBits,
      BitVec.extractLsb'_or, extractLsb'_opcode_disjoint, Machine.extractLsb'_field_same, Machine.extractLsb'_field_disjoint,
      BitVec.zero_or, BitVec.or_zero]
  | nop | srst | wopen | wint | wflush | wclose | ropen | rbit | rbyte | rint | ravail | rclose | encode | decode => rfl

/-- The operands a word has are the word's bits outside the mask. -/
theorem Instr.operandBits_withOperandsOf (i : Instr) (c : Word) : (i.withOperandsOf c).operandBits = c &&& ~~~i.mask := by
  cases i with
  | wbit _ | wbyte _ | wchar _ _ =>
    apply BitVec.eq_of_getLsbD_eq
    intro k hk
    simp only [Instr.withOperandsOf, Instr.operandBits, Instr.mask, bitOperand, byteOperand, charOperand, widthOperand]
    interval_cases k <;> simp
  | nop | srst | wopen | wint | wflush | wclose | ropen | rbit | rbyte | rint | ravail | rclose | encode | decode =>
    exact BitVec.and_zero.symm

/-- A word that decodes is put together again by the encoder, from the bits inside the mask and those outside. -/
theorem encode_of_decode {c : Word} {i : Instr} (h : decode c = .ok i) : encode i = c := by
  obtain ⟨hm, ho⟩ := decode_eq_ok_iff_matches.mp h
  have inside : i.opcode.setWidth 32 = c &&& i.mask := hm.symm
  have outside : i.operandBits = c &&& ~~~i.mask := by rw [← i.operandBits_withOperandsOf c, ho]
  calc encode i = (c &&& i.mask) ||| (c &&& ~~~i.mask) := by rw [encode, inside, outside]
    _ = c := by rw [← BitVec.and_or_distrib_left, BitVec.or_not_self, BitVec.and_allOnes]

/-- Settles O1: a command's word matches the command's row and holds its operands. -/
theorem encodedCommandDecodesToItself : Obligations.EncodedCommandDecodesToItself :=
  fun i => decode_eq_ok_iff_matches.mpr ⟨i.matches_encode, i.withOperandsOf_encode⟩

/-- The words that decode to a command are its one word. -/
theorem decode_eq_ok_iff {c : Word} {i : Instr} : decode c = .ok i ↔ encode i = c :=
  ⟨encode_of_decode, fun h => h ▸ encodedCommandDecodesToItself i⟩

/-- Settles O2: `decode` answers one command or a rejection, and encoding is its inverse. -/
theorem everyWordIsOneCommandOrIllegal : Obligations.EveryWordIsOneCommandOrIllegal := by
  intro c
  cases h : decode c with
  | ok i => exact .inl ⟨i, rfl, encode_of_decode h, fun j hj => Except.ok.inj ((decode_eq_ok_iff.mpr hj).symm.trans h)⟩
  | error e => exact .inr ⟨e, rfl, fun j hj => nomatch (decode_eq_ok_iff.mpr hj).symm.trans h⟩

/-- Settles O4: the accepted words are the encodings of their commands, and the rejected ones are evaluated. -/
theorem workedEncodingsDecode : Obligations.WorkedEncodingsDecode := by
  simp only [Obligations.WorkedEncodingsDecode, decode_eq_ok_iff]
  decide

/-! ## The MATCH and MASK table -/

/-- The commands of format N (rule R92). -/
def formatN : List Instr :=
  [.nop, .srst, .wopen, .wint, .wflush, .wclose, .ropen, .rbit, .rbyte, .rint, .ravail, .rclose, .encode, .decode]

/-- Rule R94: the rows are those of format N, which match their one word, and those of `WBIT`, `WBYTE` and `WCHAR`. -/
theorem exists_matches_iff {c : Word} :
    (∃ i : Instr, i.Matches c) ↔
      c ∈ formatN.map encode ∨ c &&& 0xFFFEFFFF#32 = 0x00000011#32 ∨ c &&& 0xFF00FFFF#32 = 0x00000012#32 ∨
      c &&& 0x0000E0FF#32 = 0x00000013#32 := by
  constructor
  · rintro ⟨i, hm⟩
    cases i with
    | wbit b => exact .inr (.inl hm)
    | wbyte v => exact .inr (.inr (.inl hm))
    | wchar V W => exact .inr (.inr (.inr hm))
    | nop | srst | wopen | wint | wflush | wclose | ropen | rbit | rbyte | rint | ravail | rclose | encode | decode =>
      exact .inl (List.mem_map.mpr ⟨_, by decide, encode_of_decode (decode_eq_ok_iff_matches.mpr ⟨hm, rfl⟩)⟩)
  · rintro (hc | hm | hm | hm)
    · obtain ⟨i, -, rfl⟩ := List.mem_map.mp hc
      exact ⟨i, i.matches_encode⟩
    · exact ⟨.wbit false, hm⟩
    · exact ⟨.wbyte 0#8, hm⟩
    · exact ⟨.wchar 0#16 0#5, hm⟩

end Sys2Proof

namespace Sys2Proof.Machine

/-! ## Words the block does not execute (rule R95) -/

theorem issue_of_illegal {c : Word} (h : ¬ ∃ i, decode c = .ok i) (s : State) :
    issue c s = faulted s .illegalCmd (opcodeField c) := by
  cases hd : decode c with
  | ok i => exact absurd ⟨i, hd⟩ h
  | error e => simp only [issue, hd]

/-- Settles O3: the table's rows are those a word decodes by. -/
theorem legalWordsAreMatchAndMask : Obligations.LegalWordsAreMatchAndMask := by
  intro c legal
  have table : (∃ i, decode c = .ok i) ↔ legal := exists_decode_iff.trans exists_matches_iff
  refine ⟨table, fun hc s hf => ?_⟩
  rw [issue_of_illegal (table.not.mpr hc), faulted_of_no_fault hf, opcodeField]

/-- Rule R263: the words the fault gate lets through. -/
theorem encode_of_admittedWhileFaulted {i : Instr} (h : admittedWhileFaulted i = true) :
    encode i = 0x00000000#32 ∨ encode i = 0x00000016#32 ∨ encode i = 0x00000025#32 ∨ encode i = 0x00000001#32 := by
  cases i with
  | nop | wclose | rclose | srst => decide
  | wopen | wbit | wbyte | wchar | wint | wflush | ropen | rbit | rbyte | rint | ravail | encode | decode => cases h

/-- While a fault is recorded, a word the gate does not let through changes nothing: an illegal word's own fault is not recorded
(rule R262), and a command is dropped. -/
theorem issue_of_not_admitted {c : Word} {s : State} (hf : s.fault = true)
    (h : ∀ i, decode c = .ok i → admittedWhileFaulted i = false) : issue c s = .next s := by
  cases hd : decode c with
  | error e => simp only [issue, hd, faulted, State.raise_of_fault hf]
  | ok i => simp [issue, hd, hf, h i hd]

/-- Settles O6: the four words excluded are those of the commands the gate admits. -/
theorem faultGateIgnoresCommands : Obligations.FaultGateIgnoresCommands := by
  intro s c stream rest hb hf hp hnop hwclose hrclose hsrst
  have closed : ∀ i, decode c = .ok i → admittedWhileFaulted i = false := by
    intro i hd
    by_contra ha
    have word := encode_of_admittedWhileFaulted (Bool.eq_true_of_not_eq_false ha)
    rw [encode_of_decode hd] at word
    exact word.elim hnop (·.elim hwclose (·.elim hrclose hsrst))
  let begun : State := { s with pending := rest, busy := true, offered := stream }
  have ignored : issue c begun = .next begun := issue_of_not_admitted (s := begun) hf closed
  calc step s = .next begun.commandDone := (step_write hb hp rfl).trans (writeCMD_of_issue ignored)
    _ = .next { s with pending := rest, offered := [] } := by simp only [State.commandDone, begun, hb]

end Sys2Proof.Machine

/-! # Proofs: the bit writer (41_bitwriter.md)

First what a run of writes does to the buffer: a run that stays inside the byte, and a run that completes it.  `WBYTE` is one of
each and `WFLUSH` a completing run of zeros.  Then what a command can do to an open writer, and the obligations. -/

namespace Sys2Proof.Machine

/-! ## The byte a run of writes makes -/

/-- `buf` shifted up by `n` bits, with the low `n` bits of `v` in the gap. -/
def shiftInLow (buf v : Byte) (n : Nat) : Byte := (buf <<< n) ||| (v &&& BitVec.ofNat 8 (2 ^ n - 1))

theorem lowMask_getLsbD (n : Nat) {k : Nat} (hk : k < 8) : (BitVec.ofNat 8 (2 ^ n - 1)).getLsbD k = decide (k < n) := by
  rw [BitVec.getLsbD_ofNat, Nat.testBit_two_pow_sub_one, decide_eq_true hk, Bool.true_and]

theorem shiftInLow_getLsbD (buf v : Byte) (n : Nat) {k : Nat} (hk : k < 8) :
    (shiftInLow buf v n).getLsbD k = if k < n then v.getLsbD k else buf.getLsbD (k - n) := by
  simp only [shiftInLow, BitVec.getLsbD_or, BitVec.getLsbD_and, BitVec.getLsbD_shiftLeft, lowMask_getLsbD n hk, hk]
  split <;> simp [*]

/-- The buffer after one `WriteBit`, bit by bit. -/
theorem shiftIn_getLsbD (buf : Byte) (b : Bool) {k : Nat} (hk : k < 8) :
    ((buf <<< 1) ||| (BitVec.ofBool b).setWidth 8).getLsbD k = if k = 0 then b else buf.getLsbD (k - 1) := by
  cases k with
  | zero => simp
  | succ k =>
    simp only [BitVec.getLsbD_or, BitVec.getLsbD_shiftLeft, BitVec.getLsbD_setWidth, BitVec.getLsbD_ofBool]
    simp [hk]

/-- A run is its first bit, then the others. -/
theorem shiftInLow_succ (buf v : Byte) (n : Nat) :
    shiftInLow ((buf <<< 1) ||| (BitVec.ofBool (v.getLsbD n)).setWidth 8) v n = shiftInLow buf v (n + 1) := by
  apply BitVec.eq_of_getLsbD_eq
  intro k hk
  rw [shiftInLow_getLsbD _ _ _ hk, shiftInLow_getLsbD _ _ _ hk]
  rcases Nat.lt_trichotomy k n with below | rfl | above
  · simp [below, Nat.lt_succ_of_lt below]
  · simp
  · rw [if_neg (by omega), if_neg (by omega), shiftIn_getLsbD _ _ (by omega), if_neg (by omega), Nat.sub_sub]

@[simp] theorem shiftInLow_zero (buf v : Byte) : shiftInLow buf v 0 = buf := by simp [shiftInLow]

@[simp] theorem shiftInLow_zero_value (buf : Byte) (n : Nat) : shiftInLow buf 0#8 n = buf <<< n := by simp [shiftInLow]

@[simp] theorem shiftInLow_zero_buf (v : Byte) (n : Nat) : shiftInLow 0#8 v n = v &&& BitVec.ofNat 8 (2 ^ n - 1) := by
  simp [shiftInLow]

/-- The high `8 - k` bits of a byte need no mask. -/
theorem shiftInLow_ushiftRight (buf v : Byte) {k : Nat} (h : k ≤ 7) :
    shiftInLow buf (v >>> k) (8 - k) = (buf <<< (8 - k)) ||| (v >>> k) := by
  apply BitVec.eq_of_getLsbD_eq
  intro j hj
  simp only [shiftInLow, BitVec.getLsbD_or, BitVec.getLsbD_and, BitVec.getLsbD_ushiftRight, lowMask_getLsbD _ hj]
  by_cases inside : j < 8 - k
  · simp [inside]
  · simp [v.getLsbD_of_ge (k + j) (by omega)]

/-! ## A run of writes (rules R120 and R128) -/

/-- `WriteBit` inside a byte. -/
theorem Writer.writeBit_of_lt {w : Writer} (h : w.count < 7) (b : Bool) :
    w.writeBit b = { w with buf := (w.buf <<< 1) ||| (BitVec.ofBool b).setWidth 8, count := w.count + 1 } :=
  if_neg (by omega)

/-- The `WriteBit` that completes a byte. -/
theorem Writer.writeBit_of_eq_seven {w : Writer} (h : w.count = 7) (b : Bool) :
    w.writeBit b = { w with buf := 0#8, count := 0, out := w.out ++ [(w.buf <<< 1) ||| (BitVec.ofBool b).setWidth 8] } :=
  if_pos (by omega)

/-- A run that stays inside the byte. -/
theorem Writer.writeAll_bitsMsb_of_lt {w : Writer} {n : Nat} (h : w.count + n ≤ 7) (v : Byte) :
    w.writeAll (bitsMsb v n) = { w with buf := shiftInLow w.buf v n, count := w.count + n } := by
  induction n generalizing w with
  | zero => simp
  | succ n ih =>
    rw [bitsMsb_succ, Writer.writeAll_cons, Writer.writeBit_of_lt (by omega), ih (by simp only; omega), shiftInLow_succ]
    simp only [Nat.add_assoc, Nat.add_comm 1 n]

/-- A run that completes the byte. -/
theorem Writer.writeAll_bitsMsb_of_eq {w : Writer} {n : Nat} (hc : w.count ≤ 7) (h : w.count + n = 8) (v : Byte) :
    w.writeAll (bitsMsb v n) = { w with buf := 0#8, count := 0, out := w.out ++ [shiftInLow w.buf v n] } := by
  induction n generalizing w with
  | zero => omega
  | succ n ih =>
    rw [bitsMsb_succ, Writer.writeAll_cons]
    rcases Nat.lt_or_eq_of_le hc with inside | last
    · rw [Writer.writeBit_of_lt inside, ih (by simpa using inside) (by simp only; omega), shiftInLow_succ]
    · obtain rfl : n = 0 := by omega
      rw [Writer.writeBit_of_eq_seven last, bitsMsb_zero, Writer.writeAll_nil, ← shiftInLow_succ, shiftInLow_zero]

/-- Rule R123: a byte completes the one in the buffer and leaves its low bits there. -/
theorem Writer.writeAll_byte {w : Writer} (h : w.count ≤ 7) (v : Byte) :
    w.writeAll (bitsMsb v 8) = { w with
      out := w.out ++ [(w.buf <<< (8 - w.count)) ||| (v >>> w.count)]
      buf := v &&& BitVec.ofNat 8 (2 ^ w.count - 1) } := by
  have atBoundary : bitsMsb v 8 = bitsMsb (v >>> w.count) (8 - w.count) ++ bitsMsb v w.count := by
    rw [← bitsMsb_add, Nat.sub_add_cancel (by omega)]
  rw [atBoundary, Writer.writeAll_append, Writer.writeAll_bitsMsb_of_eq h (by omega),
    Writer.writeAll_bitsMsb_of_lt (by simpa using h), shiftInLow_ushiftRight _ _ h]
  simp

theorem bitsMsb_zero_value (w n : Nat) : bitsMsb (0#w) n = List.replicate n false := by
  induction n with
  | zero => rfl
  | succ n ih => rw [bitsMsb_succ, ih, BitVec.getLsbD_zero, List.replicate_succ]

/-- Rule R129: an aligned writer emits nothing. -/
theorem Writer.flushPad_of_aligned {w : Writer} (h : w.count = 0) : w.flushPad = w :=
  if_neg (by omega)

/-- Rule R129: a partial byte is padded and emitted. -/
theorem Writer.flushPad_of_partial {w : Writer} (h : 0 < w.count) :
    w.flushPad = { w with buf := 0#8, count := 0, out := w.out ++ [w.buf <<< (8 - w.count)] } :=
  if_pos h

/-- Rule R129: a flush is the missing number of `WriteBit(0)`. -/
theorem Writer.flushPad_eq_writeAll {w : Writer} (h : w.count ≤ 7) :
    w.flushPad = w.writeAll (List.replicate ((8 - w.count) % 8) false) := by
  rcases Nat.eq_zero_or_pos w.count with aligned | partly
  · simp [Writer.flushPad_of_aligned aligned, aligned]
  · rw [Nat.mod_eq_of_lt (by omega), ← bitsMsb_zero_value 8, Writer.writeAll_bitsMsb_of_eq h (by omega), shiftInLow_zero_value,
      Writer.flushPad_of_partial partly]

/-! ## Fields as bit strings (rules R68 and R128) -/

/-- A field splits at any bit, its high part as a value of its own. -/
theorem bitsMsb_add_extractLsb' {w : Nat} (v : BitVec w) (m n : Nat) :
    bitsMsb v (m + n) = bitsMsb (v.extractLsb' n m) m ++ bitsMsb v n := by
  have high : bitsMsb (v >>> n) m = bitsMsb (v.extractLsb' n m) m := bitsMsb_congr fun j hj => by simp [hj]
  rw [bitsMsb_add, high]

/-- A word is its four bytes, the highest first. -/
theorem bitsMsb_word (v : Word) :
    bitsMsb v 32 = bitsMsb (v.extractLsb' 24 8) 8 ++ (bitsMsb (v.extractLsb' 16 8) 8 ++
      (bitsMsb (v.extractLsb' 8 8) 8 ++ bitsMsb (v.extractLsb' 0 8) 8)) := by
  rw [bitsMsb_add_extractLsb' v 8 24, bitsMsb_add_extractLsb' v 8 16, bitsMsb_add_extractLsb' v 8 8,
    bitsMsb_add_extractLsb' v 8 0, bitsMsb_zero, List.append_nil]

theorem bitsMsb_eq_map_range {w : Nat} (v : BitVec w) (n : Nat) :
    bitsMsb v n = (List.range n).map fun k => v.getLsbD (n - 1 - k) :=
  List.ext_getElem (by simp) fun k h _ => by rw [bitsMsb_getElem, List.getElem_map, List.getElem_range]

/-! ## The writer's commands on an open writer -/

theorem exec_wint_of_open {s : State} (h : s.writer.isOpen = true) :
    exec .wint s = .next { s with writer := s.writer.writeAll (bitsMsb s.arg 32) } :=
  if_neg (by simp [h])

theorem exec_wflush_of_open {s : State} (h : s.writer.isOpen = true) :
    exec .wflush s = .next { s with writer := s.writer.flushPad } :=
  if_neg (by simp [h])

theorem exec_wclose_of_open {s : State} (h : s.writer.isOpen = true) :
    exec .wclose s = .next { s with writer := { s.writer.flushPad with isOpen := false } } :=
  if_pos h

/-- Rule R124: the operands of a legal `WCHAR`. -/
theorem wcharLegal_iff {V : BitVec 16} {W : BitVec 5} :
    (widthLegal W = true ∧ valueFits V W = true) ↔ 1 ≤ W.toNat ∧ W.toNat ≤ 16 ∧ V.toNat < 2 ^ W.toNat := by
  simp only [widthLegal, valueFits, decide_eq_true_eq, and_assoc]

/-- `WCHAR` with any other operands. -/
theorem exec_wchar_of_illegal {s : State} (h : s.writer.isOpen = true) {V : BitVec 16} {W : BitVec 5}
    (hl : ¬ (widthLegal W = true ∧ valueFits V W = true)) : exec (.wchar V W) s = faulted s .badOperand opWCHAR := by
  cases hw : widthLegal W with
  | false => simp [exec, execWchar, h, hw]
  | true =>
    have hv : valueFits V W = false := Bool.eq_false_iff.mpr fun hv => hl ⟨hw, hv⟩
    simp [exec, execWchar, h, hw, hv]

/-- One `WBYTE` of several: only the writer changes. -/
theorem exec_wbyte_writer (s : State) {w : Writer} (h : w.isOpen = true) (v : Byte) :
    exec (.wbyte v) { s with writer := w } = .next { s with writer := w.writeAll (bitsMsb v 8) } :=
  exec_wbyte_of_open (s := { s with writer := w }) h v

/-- Settles O27: the stream check passes. -/
theorem wopenStartsAnEmptyStream : Obligations.WopenStartsAnEmptyStream :=
  fun _ h => if_neg (by simp [h])

/-- Settles O28: by whether the bit is the eighth. -/
theorem wbitAppendsOneBit : Obligations.WbitAppendsOneBit := by
  intro s b ho hc
  refine ⟨_, fun k hk => shiftIn_getLsbD s.writer.buf b hk, ?_⟩
  rw [exec_wbit_of_open ho]
  split
  · next last => rw [Writer.writeBit_of_eq_seven last]
  · next inside => rw [Writer.writeBit_of_lt (by omega)]

/-- Settles O29: the byte is one run that completes the buffer and one that starts the next. -/
theorem wbyteEmitsOneByte : Obligations.WbyteEmitsOneByte := by
  intro s v ho hc
  rw [exec_wbyte_of_open ho, Writer.writeAll_byte hc]

/-- Settles O30: the bits of a legal `WCHAR` are one run of writes. -/
theorem wcharAppendsItsWidth : Obligations.WcharAppendsItsWidth := by
  intro s V W ho hc
  refine ⟨fun legal => ?_, fun illegal hf => ?_⟩
  · obtain ⟨hw, hv⟩ := wcharLegal_iff.mpr legal
    refine ⟨_, exec_wchar_of_open ho hw hv, ?_, Writer.writeAll_out _ _, ?_, ?_⟩
    · rw [Writer.writeAll_isOpen, ho]
    · rw [Writer.writeAll_count _ hc, bitsMsb_length]
    · rw [Writer.written_writeAll _ hc, bitsMsb_eq_map_range]
  · rw [exec_wchar_of_illegal ho (wcharLegal_iff.not.mpr illegal), faulted_of_no_fault hf, opWCHAR]

/-- Settles O31: the 32 bits of `ARG` are those of its four bytes. -/
theorem wintIsFourBytesBigEndian : Obligations.WintIsFourBytesBigEndian := by
  intro s ho hc
  refine ⟨_, _, _, _, exec_wbyte_of_open ho _, exec_wbyte_writer s (by simp [ho]) _, exec_wbyte_writer s (by simp [ho]) _,
    exec_wbyte_writer s (by simp [ho]) _, ?_, by simp only, ?_⟩
  · simp only [exec_wint_of_open ho, bitsMsb_word, Writer.writeAll_append]
  · simp (disch := exact hc) only [Writer.writeAll_byte]
    exact ⟨trivial, by simp, fun aligned => by simp [aligned]⟩

/-- Settles O33: aligned, nothing is missing; otherwise a flush is the run of zeros that completes the byte. -/
theorem wflushPadsThePartialByte : Obligations.WflushPadsThePartialByte := by
  intro s ho hc
  rw [exec_wflush_of_open ho]
  refine ⟨fun aligned => ?_, fun partly => ⟨?_, ?_⟩⟩
  · rw [Writer.flushPad_of_aligned aligned]
  · rw [Writer.flushPad_of_partial partly]
  · rw [Writer.flushPad_eq_writeAll hc, Nat.mod_eq_of_lt (by omega)]

/-- Settles O34: the release keeps what the flush has written. -/
theorem wcloseFlushesAndReleases : Obligations.WcloseFlushesAndReleases :=
  fun s => ⟨fun hclosed => if_neg (by simp [hclosed]), fun ho hc =>
    ⟨_, exec_wclose_of_open ho, rfl, s.writer.flushPad_count, Writer.written_flushPad hc⟩⟩

/-! ## What a command can do to an open writer (rules R41 and R131) -/

/-- The commands that can change an open writer, `SRST` aside. -/
def ChangesWriter (i : Instr) : Prop :=
  i ∈ [Instr.wint, .wflush, .wclose, .encode] ∨ (∃ b, i = .wbit b) ∨ (∃ v, i = .wbyte v) ∨ ∃ V W, i = .wchar V W

/-- The ways command `i` can leave the open writer `w`. -/
inductive WriterEffect (i : Instr) (w : Writer) : Writer → Prop
  | unchanged : WriterEffect i w w
  | wrote (hi : ChangesWriter i) (bits : List Bool) : WriterEffect i w (w.writeAll bits)
  | released (hi : i = .wclose) : WriterEffect i w { w.flushPad with isOpen := false }

/-- A check at a command's entry either stops it, and the writer is untouched, or lets the rest run. -/
theorem WriterEffect.of_check {i : Instr} {s t : State} {p : Prop} [Decidable p] {code : FaultCode} {opc : Byte} {rest : Result}
    (h : (if p then faulted s code opc else rest) = .next t)
    (passed : rest = .next t → WriterEffect i s.writer t.writer) : WriterEffect i s.writer t.writer := by
  split at h
  · cases h; rw [State.raise_writer]; exact .unchanged
  · exact passed h

/-- A command that is known to complete with writer `w`. -/
theorem WriterEffect.of_exec_eq {i : Instr} {s t : State} {w : Writer} (heq : exec i s = .next { s with writer := w })
    (effect : WriterEffect i s.writer w) (h : exec i s = .next t) : WriterEffect i s.writer t.writer := by
  rw [heq] at h; cases h; exact effect

/-- A read command has no effect on the writer. -/
theorem State.finishRead_writer {s t : State} {opc : Byte} {n : Nat}
    (h : s.finishRead opc (s.reader.readBits n) = .next t) : t.writer = s.writer := by
  obtain ⟨r, -, ⟨v, rfl⟩ | ⟨rfl, -⟩⟩ := State.finishRead_effect h
  · rfl
  · exact State.raise_writer _ _ _ _

/-- `DECODE` has no effect on the writer. -/
theorem execDecode_writer {s t : State} (h : execDecode s = .next t) : t.writer = s.writer := by
  obtain ⟨-, rfl⟩ | ⟨-, r, symbols, -, -, rfl | ⟨code, phase, rfl, -⟩⟩ := execDecode_effect h
  · exact State.raise_writer _ _ _ _
  · rfl
  · exact State.raise_writer _ _ _ _

/-- Everything a command can do to an open writer. -/
theorem exec_writerEffect {i : Instr} {s t : State} (ho : s.writer.isOpen = true) (hc : s.writer.count ≤ 7) (hi : i ≠ .srst)
    (h : exec i s = .next t) : WriterEffect i s.writer t.writer := by
  cases i with
  | nop => cases h; exact .unchanged
  | srst => exact absurd rfl hi
  | wopen => rw [exec_wopen_of_open ho] at h; cases h; rw [State.raise_writer]; exact .unchanged
  | wbit b => exact .of_exec_eq (exec_wbit_of_open ho b) (.wrote (.inr (.inl ⟨b, rfl⟩)) [b]) h
  | wbyte v => exact .of_exec_eq (exec_wbyte_of_open ho v) (.wrote (.inr (.inr (.inl ⟨v, rfl⟩))) _) h
  | wchar V W =>
    refine .of_check h fun h => .of_check h fun h => .of_check h fun h => ?_
    cases h; exact .wrote (.inr (.inr (.inr ⟨V, W, rfl⟩))) _
  | wint => exact .of_exec_eq (exec_wint_of_open ho) (.wrote (.inl (by decide)) _) h
  | wflush =>
    refine .of_exec_eq (exec_wflush_of_open ho) ?_ h
    rw [Writer.flushPad_eq_writeAll hc]
    exact .wrote (.inl (by decide)) _
  | wclose => exact .of_exec_eq (exec_wclose_of_open ho) (.released rfl) h
  | ropen | ravail => exact .of_check h fun h => by cases h; exact .unchanged
  | rbit | rbyte | rint => exact .of_check h fun h => State.finishRead_writer h ▸ .unchanged
  | rclose =>
    simp only [exec, execRclose] at h
    split at h <;> cases h <;> exact .unchanged
  | encode =>
    refine .of_check h fun h => .of_check h fun h => ?_
    cases h; exact .wrote (.inl (by decide)) _
  | decode => exact execDecode_writer h ▸ .unchanged

/-- Rule R131: eight bits for each byte of `WOUT`, and those in `W.buf`. -/
theorem Writer.written_length (w : Writer) : w.written.length = 8 * w.out.length + w.count := by
  simp [Writer.written]

/-- What each effect keeps of a writer: no byte and no bit is taken back, and the invariant holds again. -/
theorem WriterEffect.appends {i : Instr} {w w' : Writer} (h : WriterEffect i w w') (hw : w.Inv) (ho : w.isOpen = true) :
    w.out <+: w'.out ∧ w.written <+: w'.written ∧ w'.Inv := by
  cases h with
  | unchanged => exact ⟨List.prefix_refl _, List.prefix_refl _, hw⟩
  | wrote _ bits =>
    exact ⟨w.writeAll_out bits, ⟨bits, (Writer.written_writeAll bits hw.count_le).symm⟩, hw.writeAll ho bits⟩
  | released => exact ⟨w.flushPad_out, ⟨_, (Writer.written_flushPad hw.count_le).symm⟩, hw.close⟩

/-- A writer that is not as it was has been changed by one of the commands that can. -/
theorem WriterEffect.unchanged_or_changesWriter {i : Instr} {w w' : Writer} (h : WriterEffect i w w') :
    w' = w ∨ ChangesWriter i := by
  cases h with
  | unchanged => exact .inl rfl
  | wrote hi => exact .inr hi
  | released hi => exact .inr (.inl (by simp [hi]))

/-- Settles O35: by the effects a command can have on an open writer. -/
theorem writerOnlyAppends : Obligations.WriterOnlyAppends := by
  intro i s t hw hi ho h
  have effect := exec_writerEffect ho hw.count_le hi h
  obtain ⟨out, written, inv⟩ := effect.appends hw ho
  exact ⟨out, written, t.writer.written_length, inv, effect.unchanged_or_changesWriter⟩

end Sys2Proof.Machine

/-! # Proofs: the bit reader (42_bitreader.md)

First the value of two runs of reads in a row, from which `RINT` is four `RBYTE`s.  Then the three read commands, by whether enough
bits are left, and what a command can do to the reader. -/

namespace Sys2Proof.Machine

/-! ## Runs of reads (rule R157) -/

/-- Bits in the accumulator before a run end up above the value the run makes without them. -/
theorem Reader.readBitsInto_or {r r' : Reader} {acc v : Word} {n : Nat} (high : Word) (h : r.readBitsInto acc n = .got v r') :
    r.readBitsInto (high ||| acc) n = .got ((high <<< n) ||| v) r' := by
  induction n generalizing r acc high with
  | zero => cases h; simp [Reader.readBitsInto]
  | succ n ih =>
    cases hb : r.readBit with
    | ended r1 => simp [Reader.readBitsInto, hb] at h
    | got b r1 =>
      simp only [Reader.readBitsInto, hb] at h ⊢
      rw [BitVec.shiftLeft_or_distrib, BitVec.or_assoc, ih (high <<< 1) h, ← BitVec.shiftLeft_add, Nat.add_comm 1 n]

/-- Two runs in a row are one run, the first one's value highest. -/
theorem Reader.readBits_add {r r1 r2 : Reader} {u v : Word} {m n : Nat} (hu : r.readBits m = .got u r1)
    (hv : r1.readBits n = .got v r2) : r.readBits (m + n) = .got ((u <<< n) ||| v) r2 := by
  have second := Reader.readBitsInto_or u hv
  rw [BitVec.or_zero] at second
  rw [Reader.readBits, Reader.readBitsInto_add]
  rw [Reader.readBits] at hu
  simp only [hu, second]

/-- With at least `n` unconsumed bits, `ReadBits(n)` completes and leaves the others. -/
theorem Reader.readBits_of_le_length {r : Reader} {n : Nat} (h : n ≤ r.unread.length) :
    ∃ v r', r.readBits n = .got v r' ∧ r'.isOpen = r.isOpen ∧ r'.unread.length = r.unread.length - n := by
  obtain ⟨r', got, left, isOpen⟩ := Reader.readBitsInto_got 0#32 (List.take_append_drop n r.unread).symm
  rw [List.length_take_of_le h] at got
  exact ⟨_, r', got, isOpen, by rw [left, List.length_drop]⟩

/-- With no unconsumed bit, a read of any bits ends and changes nothing. -/
theorem Reader.readBits_of_unread_nil {r : Reader} (h : r.unread = []) (n : Nat) : r.readBits (n + 1) = .ended r := by
  simp only [Reader.readBits, Reader.readBitsInto, Reader.readBit_ended h]

/-! ## The reader's commands on an open reader -/

/-- The commands that read, each with its number of bits (rules R152 to R154). -/
def readCommands : List (Instr × Nat) := [(.rbit, 1), (.rbyte, 8), (.rint, 32)]

/-- On an open reader a read command is `ReadBits` and the end of a read. -/
theorem exec_read_of_open {i : Instr} {n : Nat} {s : State} (hi : (i, n) ∈ readCommands) (h : s.reader.isOpen = true) :
    exec i s = s.finishRead i.opcode (s.reader.readBits n) := by
  have passed : ¬ (!s.reader.isOpen) = true := by simp [h]
  simp only [readCommands, List.mem_cons, Prod.mk.injEq, List.not_mem_nil, or_false] at hi
  obtain ⟨rfl, rfl⟩ | ⟨rfl, rfl⟩ | ⟨rfl, rfl⟩ := hi <;> exact if_neg passed

theorem exec_read_got {i : Instr} {n : Nat} {s : State} (hi : (i, n) ∈ readCommands) (h : s.reader.isOpen = true) {v : Word}
    {r : Reader} (hr : s.reader.readBits n = .got v r) : exec i s = .next { s with reader := r, result := v } := by
  rw [exec_read_of_open hi h, hr, State.finishRead]

theorem exec_read_ended {i : Instr} {n : Nat} {s : State} (hi : (i, n) ∈ readCommands) (h : s.reader.isOpen = true) {r : Reader}
    (hr : s.reader.readBits n = .ended r) : exec i s = faulted { s with reader := r } .streamExhausted i.opcode := by
  rw [exec_read_of_open hi h, hr, State.finishRead]

theorem exec_ravail_of_open {s : State} (h : s.reader.isOpen = true) :
    exec .ravail s = .next { s with result := if s.reader.avail then 1#32 else 0#32 } :=
  if_neg (by simp [h])

theorem readCommands_width_le {i : Instr} {n : Nat} (hi : (i, n) ∈ readCommands) : n ≤ 32 := by
  simp only [readCommands, List.mem_cons, Prod.mk.injEq, List.not_mem_nil, or_false] at hi
  omega

/-- Settles O37: the read completes, and its value's bits are the bits it consumed. -/
theorem readCommandsReturnTheNextBits : Obligations.ReadCommandsReturnTheNextBits := by
  rintro s i _ bits rest hi ho unread rfl
  obtain ⟨v, r, got, value, small, left, isOpen⟩ := Reader.readBits_got unread (readCommands_width_le hi)
  refine ⟨v, r, exec_read_got hi ho got, left, isOpen.trans ho, small, fun k hk => ?_⟩
  rw [← bitsMsb_getElem v bits.length k (by simpa using hk)]
  exact List.getElem_of_eq value _

/-- Settles O38: the read ends with no bit left; a read of one bit has none to consume. -/
theorem readPastTheEndFaults : Obligations.ReadPastTheEndFaults := by
  intro s i n hi ho short hf
  obtain ⟨r, ended, left, isOpen⟩ := Reader.readBits_ended short
  obtain ⟨count, rin⟩ := Reader.unread_eq_nil.mp left
  have recorded := faulted_of_no_fault (s := { s with reader := r }) hf .streamExhausted i.opcode
  refine ⟨r, (exec_read_ended hi ho ended).trans recorded, count, rin, isOpen.trans ho, fun hrbit => ?_⟩
  obtain rfl : n = 1 := by simpa [hrbit] using hi
  have exhausted : s.reader.unread = [] := List.length_eq_zero_iff.mp (Nat.lt_one_iff.mp short)
  rw [Reader.readBits_of_unread_nil exhausted] at ended
  cases ended; rfl

/-- Settles O39: the 32 bits of `RINT` are four runs of 8. -/
theorem rintIsFourRbytesBigEndian : Obligations.RintIsFourRbytesBigEndian := by
  intro s ho enough
  obtain ⟨v0, r0, got0, open0, left0⟩ := Reader.readBits_of_le_length (n := 8) (r := s.reader) (by omega)
  obtain ⟨v1, r1, got1, open1, left1⟩ := Reader.readBits_of_le_length (n := 8) (r := r0) (by omega)
  obtain ⟨v2, r2, got2, open2, left2⟩ := Reader.readBits_of_le_length (n := 8) (r := r1) (by omega)
  obtain ⟨v3, r3, got3, -, -⟩ := Reader.readBits_of_le_length (n := 8) (r := r2) (by omega)
  have rbyte : (Instr.rbyte, 8) ∈ readCommands := by decide
  have all : s.reader.readBits 32 = .got ((v0 <<< 24) ||| (v1 <<< 16) ||| (v2 <<< 8) ||| v3) r3 := by
    rw [Reader.readBits_add (Reader.readBits_add (Reader.readBits_add got0 got1) got2) got3]
    simp only [BitVec.shiftLeft_or_distrib, ← BitVec.shiftLeft_add]
  rw [open1, open0] at open2
  rw [open0] at open1
  exact ⟨_, _, _, _, exec_read_got rbyte ho got0, exec_read_got rbyte (open0.trans ho) got1,
    exec_read_got rbyte (open1.trans ho) got2, exec_read_got rbyte (open2.trans ho) got3, exec_read_got (by decide) ho all⟩

/-- Settles O40: `Avail()` is whether an unconsumed bit is left. -/
theorem ravailTellsWhetherABitIsLeft : Obligations.RavailTellsWhetherABitIsLeft := by
  intro s ho
  rw [exec_ravail_of_open ho]
  simp only [Reader.avail_iff, ne_eq, ite_not]

/-- Settles O36: the stream check passes. -/
theorem ropenAttachesTheDeliveredBytes : Obligations.RopenAttachesTheDeliveredBytes :=
  fun _ h => if_neg (by simp [h])

/-- Settles O41: by whether the reader is open. -/
theorem rcloseDropsTheInput : Obligations.RcloseDropsTheInput :=
  fun _ => ⟨fun hclosed => if_neg (by simp [hclosed]), fun ho => if_pos ho⟩

/-! ## What a command can do to the reader (rule R162) -/

/-- No effect but an open, a close and a reset does more to the reader than reads do. -/
theorem ExecEffect.reader_consumes {i : Instr} {s t : State} (h : ExecEffect i s t) (hopen : i ≠ .ropen) (hclose : i ≠ .rclose)
    (hreset : i ≠ .srst) : s.reader.Consumes t.reader := by
  cases h with
  | attached hi => exact absurd hi hopen
  | detached hi => exact absurd hi hclose
  | reset hi => exact absurd hi hreset
  | unchanged | wrote | encoded => exact .refl _
  | stopped => rw [State.raise_reader]; exact .refl _
  | read _ _ _ _ hr => exact hr
  | decoded _ _ _ _ _ hr => exact hr
  | exhausted _ _ hr => rw [State.raise_reader]; exact hr
  | decodeStopped _ _ _ _ _ _ hr => rw [State.raise_reader]; exact hr

/-- Settles O42: by the effects a command can have. -/
theorem readerConsumesAPrefix : Obligations.ReaderConsumesAPrefix := by
  intro i s t hopen hclose hreset hcount h
  have consumes := (exec_effect h).reader_consumes hopen hclose hreset
  have bound := consumes.count_le hcount
  obtain ⟨isOpen, run⟩ := consumes
  exact ⟨isOpen, bound, run⟩

end Sys2Proof.Machine

/-! # Proofs: compression (43_compress.md)

First the queue and the trie `BuildTrie` makes of a payload: its merge passes, its leaves, and the two payloads of fewer than two
values.  Then the codes of a trie, what `ENCODE` writes, and the obligations. -/

namespace Sys2Proof.Machine

/-! ## The merge loop (rule R183) -/

/-- One pass of the merge loop, by the two extractions it makes. -/
theorem mergeLoop_succ {x y a b : QueueEntry} {rest others remaining : List QueueEntry} (fuel ntop : Nat)
    (first : extractMin x rest = (a, y :: others)) (second : extractMin y others = (b, remaining)) :
    mergeLoop (fuel + 1) ntop x rest = mergeLoop fuel (ntop + 1) (newInternal ntop a b) remaining := by
  simp only [mergeLoop, first, second]

/-- With one entry left the loop returns it. -/
theorem mergeLoop_nil (fuel ntop : Nat) (x : QueueEntry) : mergeLoop fuel ntop x [] = x.trie := by
  cases fuel <;> rfl

/-- Where the queue has a second entry, `ExtractMin` leaves one. -/
theorem exists_extractMin_eq_cons (x : QueueEntry) {rest : List QueueEntry} (h : rest ≠ []) :
    ∃ a y others, extractMin x rest = (a, y :: others) := by
  have left : (extractMin x rest).2 ≠ [] := by
    rw [← List.length_pos_iff, extractMin_length]
    exact List.length_pos_iff.mpr h
  obtain ⟨y, others, eq⟩ := List.exists_cons_of_ne_nil left
  exact ⟨_, y, others, Prod.ext rfl eq⟩

/-- Settles O45: by the two extractions of a pass. -/
theorem extractMinTakesTheLeastKey : Obligations.ExtractMinTakesTheLeastKey := by
  refine ⟨fun x rest => ⟨extractMin_perm x rest, extractMin_least x rest⟩, fun fuel ntop x rest h => ?_, mergeLoop_nil⟩
  obtain ⟨a, y, others, first⟩ := exists_extractMin_eq_cons x h
  obtain ⟨b, remaining, second⟩ : ∃ b remaining, extractMin y others = (b, remaining) := ⟨_, _, rfl⟩
  have taken := extractMin_perm x rest
  have least := extractMin_least x rest
  have takenNext := extractMin_perm y others
  have leastNext := extractMin_least y others
  rw [first] at taken least
  rw [second] at takenNext leastNext
  refine ⟨a, b, remaining, (takenNext.cons a).trans taken, fun z hz => ?_, fun z hz => ?_, mergeLoop_succ fuel ntop first second⟩
  · exact least z (taken.subset (List.mem_cons_of_mem a (takenNext.subset hz)))
  · exact leastNext z (takenNext.subset (List.mem_cons_of_mem b hz))

/-- The trie `BuildTrie` returns is what the merge passes make of its leaves: their `seq` are their places, all below `NTOP`. -/
theorem buildTrie_mergesTo (payload : List Byte) :
    MergesTo (leafQueue payload).length (leafQueue payload) (buildTrie payload) := by
  rw [leafQueue_eq, newLeaves_length]
  unfold buildTrie
  obtain ⟨⟨v, w⟩, rest⟩ := leafWeights payload
  have places := newLeaves_seq 0 ((v, w) :: rest)
  refine mergeLoop_mergesTo rest.length (rest.length + 1) ⟨w, 0, .leaf v⟩ (newLeaves 1 rest) (newLeaves_length 1 rest).le ?_
    fun z hz => ?_
  · exact places ▸ List.nodup_range'
  · have place := List.mem_map_of_mem (f := QueueEntry.seq) hz
    exact (List.mem_range'_1.mp (places ▸ place)).2.trans_eq (Nat.zero_add _)

/-! ## The leaves of the encoder's trie (rules R182 and R188) -/

/-- The values counted are the payload's distinct values. -/
theorem occurring_perm_dedup (payload : List Byte) : ((occurring payload).map Prod.fst).Perm payload.dedup :=
  (List.perm_ext_iff_of_nodup (occurring_nodup payload) payload.nodup_dedup).mpr fun _ =>
    mem_occurring.trans List.mem_dedup.symm

/-- A synthetic leaf's value differs from every value that occurs. -/
theorem leafWeights_nodup (payload : List Byte) :
    ((leafWeights payload).1.1 :: (leafWeights payload).2.map Prod.fst).Nodup := by
  have distinct := occurring_nodup payload
  unfold leafWeights
  split
  next => decide
  next u _ =>
    by_cases h : u.1 = 0#8 <;> simp [h]
  next eq =>
    rw [eq] at distinct
    exact distinct

theorem buildTrie_values_nodup (payload : List Byte) : (buildTrie payload).values.Nodup :=
  (buildTrie_values payload).nodup_iff.mpr (leafWeights_nodup payload)

/-- The values counted, each with its count. -/
theorem occurring_eq_map_count (payload : List Byte) :
    occurring payload = ((occurring payload).map Prod.fst).map fun v => (v, payload.count v) := by
  simp [occurring_eq, Function.comp_def]

theorem occurring_replicate (u : Byte) (n : Nat) : occurring (List.replicate (n + 1) u) = [(u, n + 1)] := by
  have values : (occurring (List.replicate (n + 1) u)).map Prod.fst = [u] := by
    have perm := occurring_perm_dedup (List.replicate (n + 1) u)
    rwa [List.replicate_dedup n.succ_ne_zero, List.perm_singleton] at perm
  rw [occurring_eq_map_count, values]
  simp

/-- With one value the synthetic leaf has the lesser weight, so it is extracted first and stands on the left. -/
theorem buildTrie_replicate (u : Byte) (n : Nat) :
    buildTrie (List.replicate (n + 1) u) = .node (.leaf (if u = 0#8 then 1#8 else 0#8)) (.leaf u) := by
  simp [buildTrie, leafWeights, occurring_replicate, newLeaves, mergeLoop, extractMin, QueueEntry.before, newInternal]

/-- With two synthetic leaves of weight 0 their order of allocation decides. -/
theorem buildTrie_nil : buildTrie [] = .node (.leaf 0#8) (.leaf 1#8) := by
  have empty : occurring [] = [] := by simp [occurring_eq]
  simp [buildTrie, leafWeights, empty, newLeaves, mergeLoop, extractMin, QueueEntry.before, newInternal]

/-- Settles O46: the leaves are those allocated, and a full binary tree has one internal node fewer than leaves. -/
theorem encoderTrieHasOneLeafPerValue : Obligations.EncoderTrieHasOneLeafPerValue := by
  refine ⟨fun payload => ?_, fun u n => ?_, ?_⟩
  · have distinct : (occurring payload).length = payload.dedup.length := by
      simpa using (occurring_perm_dedup payload).length_eq
    have size := (buildTrie payload).size_eq
    have bound := buildTrie_leaves_le payload
    refine ⟨distinct ▸ buildTrie_leaves payload, bound, by omega, by omega, fun v hv => ?_⟩
    exact List.count_eq_one_of_mem (buildTrie_values_nodup payload) (mem_values_buildTrie hv)
  · rw [buildTrie_replicate]; rfl
  · rw [buildTrie_nil]; rfl

/-! ## The codes of a trie (rules R190 and R191) -/

/-- No path to a leaf goes on through another leaf, so a path that begins another ends at its value. -/
theorem Trie.value_eq_of_walk_prefix {t : Trie} {a b : Byte} {p q : List Bool} (hp : (a, p) ∈ t.walk [])
    (hq : (b, q) ∈ t.walk []) (h : p <+: q) : a = b := by
  induction t generalizing p q with
  | leaf v =>
    cases List.mem_singleton.mp hp
    cases List.mem_singleton.mp hq
    rfl
  | node l r ihl ihr =>
    rcases Trie.mem_walk_node.mp hp with ⟨p, rfl, hp'⟩ | ⟨p, rfl, hp'⟩ <;>
      rcases Trie.mem_walk_node.mp hq with ⟨q, rfl, hq'⟩ | ⟨q, rfl, hq'⟩ <;>
      obtain ⟨edge, h⟩ := List.cons_prefix_cons.mp h
    case inl.inl => exact ihl hp' hq' h
    case inr.inr => exact ihr hp' hq' h
    case inl.inr | inr.inl => cases edge

/-- Each edge of the path to a leaf leaves a subtrie, so a leaf, aside. -/
theorem Trie.length_lt_leaves_of_mem_walk {t : Trie} {v : Byte} {p : List Bool} (h : (v, p) ∈ t.walk []) :
    p.length < t.leaves := by
  induction t generalizing p with
  | leaf u =>
    cases List.mem_singleton.mp h
    exact Nat.zero_lt_one
  | node l r ihl ihr =>
    have hl := l.one_le_leaves
    have hr := r.one_le_leaves
    rcases Trie.mem_walk_node.mp h with ⟨q, rfl, hq⟩ | ⟨q, rfl, hq⟩
    · have := ihl hq
      simp only [List.length_cons, Trie.leaves]; omega
    · have := ihr hq
      simp only [List.length_cons, Trie.leaves]; omega

/-- Only a root leaf has the empty code. -/
theorem Trie.ne_nil_of_mem_walk {t : Trie} {v : Byte} {p : List Bool} (ht : 2 ≤ t.leaves) (h : (v, p) ∈ t.walk []) : p ≠ [] := by
  cases t with
  | leaf u => simp [Trie.leaves] at ht
  | node l r => rcases Trie.mem_walk_node.mp h with ⟨q, rfl, -⟩ | ⟨q, rfl, -⟩ <;> exact List.cons_ne_nil _ q

theorem two_le_leaves_buildTrie (payload : List Byte) : 2 ≤ (buildTrie payload).leaves :=
  (buildTrie_leaves payload).symm ▸ le_max_left 2 _

/-- Settles O47: where one code begins the other, the two are codes of one value. -/
theorem codesArePrefixFree : Obligations.CodesArePrefixFree := by
  intro root a b p q hne hp hq h
  exact hne (Trie.value_eq_of_walk_prefix (lookup_mem hp) (lookup_mem hq) h)

/-- Settles O48: the root is no leaf, and a path has fewer edges than the trie has leaves. -/
theorem codeLengthsAreBounded : Obligations.CodeLengthsAreBounded := by
  intro payload v p h
  have pos := List.length_pos_iff.mpr (Trie.ne_nil_of_mem_walk (two_le_leaves_buildTrie payload) h)
  have lt := Trie.length_lt_leaves_of_mem_walk h
  have bound := buildTrie_leaves_le payload
  exact ⟨pos, by omega, by omega⟩

/-! ## ENCODE (rules R180, R187, R189, R192 and R194) -/

/-- Everything a run of `payloadBits` appends: the trie, the length, the codes. -/
theorem Writer.written_writeAll_payloadBits {w : Writer} (h : w.count ≤ 7) (root : Trie) (len : Word) (payload : List Byte) :
    (w.writeAll (payloadBits root len payload)).written =
      w.written ++ root.serialize ++ bitsMsb len 32 ++ payload.flatMap (codeOf (deriveCodes root)) := by
  rw [Writer.written_writeAll _ h]
  simp only [payloadBits, symbolBits, List.append_assoc]

/-- Settles O43: the trie by the merge passes, the bits by the writer's law. -/
theorem encodeWritesTrieLengthAndCodes : Obligations.EncodeWritesTrieLengthAndCodes := by
  intro s ho hc hl payload root code
  refine ⟨buildTrie_mergesTo payload, two_le_leaves_buildTrie payload, buildTrie_leaves_le payload,
    fun x hx => codeOf_mem (mem_values_buildTrie hx), _, _, execEncode_eq ho hl, ?_, s.writer.writeAll_out _,
    Writer.written_writeAll_payloadBits hc root s.arg payload⟩
  rw [Writer.writeAll_isOpen, ho]

/-- Settles O49: the lengths of the three parts `ENCODE` appends. -/
theorem encodeOutputSize : Obligations.EncodeOutputSize := by
  intro s t ho hc hl h root
  obtain ⟨-, -, -, -, w, u, heq, -, -, written⟩ := encodeWritesTrieLengthAndCodes s ho hc hl
  cases heq.symm.trans h
  have trie : root.serialize.length = 10 * root.leaves - 1 := by
    have := root.serialize_length
    omega
  refine ⟨trie, ?_⟩
  simp only [written, List.length_append, bitsMsb_length, List.length_flatMap]
  rw [trie]

/-- The payload depends on the written bytes only, where all of it is written. -/
theorem State.payload_congr {s s' : State} {n : Nat}
    (h : ∀ i, i < n → (s.pbuf.read i).isSome = true ∧ s.pbuf.read i = s'.pbuf.read i) : s.payload n = s'.payload n := by
  refine List.map_congr_left fun i hi => ?_
  obtain ⟨written, eq⟩ := h i (List.mem_range.mp hi)
  obtain ⟨y, hy⟩ := Option.isSome_iff_exists.mp written
  rw [(State.pbufByte_of_written hy).1, (State.pbufByte_of_written (eq.symm.trans hy)).1]

/-- Settles O50: what `ENCODE` leaves depends on the payload, `ARG` and the writer only. -/
theorem encodeIsDeterministic : Obligations.EncodeIsDeterministic := by
  intro s s' t t' harg hwriter hl hl' ho hbytes h h'
  have payload := State.payload_congr hbytes
  cases (execEncode_eq ho hl).symm.trans h
  cases (execEncode_eq (hwriter ▸ ho) hl').symm.trans h'
  simp only [payload, hwriter, ← harg, and_self]

/-- Settles O44: the stream check passes and the length check does not. -/
theorem encodeRefusesTooLongAPayload : Obligations.EncodeRefusesTooLongAPayload := by
  intro s ho hl hf
  calc exec .encode s
    _ = if s.payloadCap < s.arg then faulted s .lengthTooLarge opENCODE else _ := if_neg (by simp [ho])
    _ = faulted s .lengthTooLarge opENCODE := if_pos (BitVec.lt_def.mpr hl)
    _ = _ := faulted_of_no_fault hf _ _

end Sys2Proof.Machine

/-! # Proofs: decompression (44_decompress.md)

First `DECODE` on an open reader phase by phase: what it does once the trie is read, and once the length is read.  Then the streams it
completes on, the streams it stops on, and what it neither reads nor changes.  The reads themselves are in Laws/Trie.lean. -/

namespace Sys2Proof.Machine

/-! ## The phases of `DECODE` (rules R220 to R224) -/

theorem exec_decode_of_open {s : State} (h : s.reader.isOpen = true) :
    exec .decode s = decodePhaseTrie { s with dcount := 0#32, workDraws := s.workDraws + 1 } :=
  if_neg (by simp [h])

/-- Settles O51: `ReadTrie` from an empty `NODE`. -/
theorem trieSerializationRoundTrip : Obligations.TrieSerializationRoundTrip := by
  intro t r rest hsize hunread
  simpa using readTrie_serialize t (ntop := 0) hunread ((Nat.zero_add _).trans_le hsize) (Nat.le_add_left _ _)

/-- On a trie that fits `NODE`, `DECODE` goes on with phase 2 behind it. -/
theorem exec_decode_of_trie {s : State} {root : Trie} {rest : List Bool} (ho : s.reader.isOpen = true) (hsize : root.size ≤ 511)
    (h : s.reader.unread = root.serialize ++ rest) :
    ∃ r, exec .decode s = decodePhaseLength root { s with reader := r, dcount := 0#32, workDraws := s.workDraws + 1 } ∧
      r.unread = rest ∧ r.isOpen = true := by
  obtain ⟨r, hread, hrest, hopen⟩ := trieSerializationRoundTrip root s.reader rest hsize h
  refine ⟨r, ?_, hrest, hopen.trans ho⟩
  rw [exec_decode_of_open ho, decodePhaseTrie, hread]

/-- On a trie that fits `NODE` and a length, `DECODE` goes on with phase 3 behind them. -/
theorem exec_decode_of_length {s : State} {root : Trie} {n : Word} {rest : List Bool} (ho : s.reader.isOpen = true)
    (hsize : root.size ≤ 511) (h : s.reader.unread = root.serialize ++ (bitsMsb n 32 ++ rest)) :
    ∃ r, exec .decode s = decodePhaseSymbols root n { s with reader := r, dcount := 0#32, workDraws := s.workDraws + 1 } ∧
      r.unread = rest ∧ r.isOpen = true := by
  obtain ⟨r, hexec, hunread, hopen⟩ := exec_decode_of_trie ho hsize h
  obtain ⟨r', hread, hrest, hopen'⟩ := Reader.readBits_of_bits hunread (Nat.le_refl 32) n.isLt
  refine ⟨r', ?_, hrest, hopen'.trans hopen⟩
  rw [hexec, decodePhaseLength, hread]

/-! ## What `DECODE` completes on (rules R224 to R228 and R230) -/

/-- Settles O52: phase 3 on a run of codes. -/
theorem decodeEmitsTheCodedLeaves : Obligations.DecodeEmitsTheCodedLeaves := by
  intro s root symbols rest ho hsize hcodes hlen hunread
  obtain ⟨r, hexec, hr, hopen⟩ := exec_decode_of_length ho hsize (by simpa only [List.append_assoc] using hunread)
  obtain ⟨r', hrun, hrest, hopen'⟩ := decodeSymbols_codes symbols hcodes s.dout 0#32 hr
  refine ⟨r', ?_, hrest, hopen'.trans hopen⟩
  have hn : (BitVec.ofNat 32 symbols.length).toNat = symbols.length := Nat.mod_eq_of_lt hlen
  simp [hexec, decodePhaseSymbols, hn, hrun]

/-- `E` of rule R230: the bits of a payload, whatever the writer's alignment. -/
def encodedBits (payload : List Byte) : List Bool :=
  payloadBits (buildTrie payload) (BitVec.ofNat 32 payload.length) payload

@[simp] theorem State.payload_length (s : State) (n : Nat) : (s.payload n).length = n := by simp [State.payload]

/-- `ENCODE` appends the payload's bits, without a fault. -/
theorem exec_encode_written {s : State} (ho : s.writer.isOpen = true) (hc : s.writer.count ≤ 7)
    (hl : s.arg.toNat ≤ s.payloadCap.toNat) :
    ∃ t, exec .encode s = .next t ∧ t.fault = s.fault ∧
      t.writer.written = s.writer.written ++ encodedBits (s.payload s.arg.toNat) := by
  refine ⟨_, execEncode_eq ho hl, rfl, ?_⟩
  rw [encodedBits, State.payload_length, BitVec.ofNat_toNat, BitVec.setWidth_eq]
  exact Writer.written_writeAll _ hc

/-- A payload's bytes, each with its code. -/
def codedSymbols (payload : List Byte) : List (Byte × List Bool) :=
  payload.map fun x => (x, codeOf (deriveCodes (buildTrie payload)) x)

@[simp] theorem codedSymbols_length (payload : List Byte) : (codedSymbols payload).length = payload.length := List.length_map _

@[simp] theorem codedSymbols_map_fst (payload : List Byte) : (codedSymbols payload).map Prod.fst = payload := by
  simp [codedSymbols, Function.comp_def]

theorem mem_walk_of_mem_codedSymbols {payload : List Byte} {c : Byte × List Bool} (h : c ∈ codedSymbols payload) :
    c ∈ (buildTrie payload).walk [] := by
  obtain ⟨x, hx, rfl⟩ := List.mem_map.mp h
  exact codeOf_mem (mem_values_buildTrie hx)

theorem encodedBits_eq (payload : List Byte) :
    encodedBits payload = (buildTrie payload).serialize ++ bitsMsb (BitVec.ofNat 32 (codedSymbols payload).length) 32 ++
      (codedSymbols payload).flatMap Prod.snd := by
  simp only [encodedBits, payloadBits, symbolBits, codedSymbols, List.flatMap_map, List.length_map, List.append_assoc]

/-- On the bits of a payload `DECODE` completes with that payload. -/
theorem exec_decode_encodedBits {d : State} {payload : List Byte} {rest : List Bool} (ho : d.reader.isOpen = true)
    (hlen : payload.length < 2 ^ 32) (h : d.reader.unread = encodedBits payload ++ rest) :
    ∃ r, exec .decode d = .next { d with
        reader := r, dout := d.dout ++ payload, dcount := BitVec.ofNat 32 payload.length
        result := BitVec.ofNat 32 payload.length, workDraws := d.workDraws + 1 } ∧
      r.unread = rest := by
  obtain ⟨-, -, -, hsize, -⟩ := encoderTrieHasOneLeafPerValue.1 payload
  rw [encodedBits_eq] at h
  obtain ⟨r, hexec, hrest, -⟩ := decodeEmitsTheCodedLeaves d (buildTrie payload) (codedSymbols payload) rest ho hsize
    (fun _ => mem_walk_of_mem_codedSymbols) ((codedSymbols_length payload).trans_lt hlen) h
  rw [codedSymbols_length, codedSymbols_map_fst] at hexec
  exact ⟨r, hexec, hrest⟩

/-- Settles O53, with the bits of a payload as `E`. -/
theorem decodeInvertsEncode : Obligations.DecodeInvertsEncode := by
  refine ⟨encodedBits, fun s ho hc hl => ?_⟩
  obtain ⟨t, hencode, hfault, hwritten⟩ := exec_encode_written ho hc hl
  refine ⟨t, hencode, hfault, hwritten, fun d rest hd h => ?_⟩
  obtain ⟨r, hdecode, hrest⟩ := exec_decode_encodedBits hd (by simpa using s.arg.isLt) h
  have hlen : BitVec.ofNat 32 (s.payload s.arg.toNat).length = s.arg := by simp
  exact ⟨_, hdecode, rfl, rfl, rfl, hlen, hlen, hrest⟩

/-! ## What `DECODE` stops on (rules R222, R223, R226 and R229) -/

/-- `DECODE` records this fault once it has emitted and counted `symbols`, with the bits `left` unconsumed. -/
def DecodeStops (s : State) (code : FaultCode) (phase : Phase) (symbols : List Byte) (left : List Bool) : Prop :=
  ∃ r, exec .decode s = .next { s with
      reader := r, dout := s.dout ++ symbols, dcount := BitVec.ofNat 32 symbols.length
      workDraws := s.workDraws + 1, fault := true, err := ⟨code, opDECODE, phase⟩ } ∧
    r.unread = left ∧ r.isOpen = true

theorem DecodeStops.of_decodeFaulted {s : State} (hf : s.fault = false) {code : FaultCode} {phase : Phase} {symbols : List Byte}
    {left : List Bool} {r : Reader}
    (h : exec .decode s = decodeFaulted { s with
      reader := r, dout := s.dout ++ symbols, dcount := BitVec.ofNat 32 symbols.length, workDraws := s.workDraws + 1 } code phase)
    (hleft : r.unread = left) (hopen : r.isOpen = true) : DecodeStops s code phase symbols left := by
  refine ⟨r, ?_, hleft, hopen⟩
  rw [h, decodeFaulted, State.raise_of_no_fault]
  exact hf

section
variable {s : State} (ho : s.reader.isOpen = true) (hf : s.fault = false)
include ho hf

/-- Phase 1 stops where `NODE` is full and the trie has more nodes. -/
theorem decodeStops_of_larger_trie {t : Trie} {rest : List Bool} (hsize : 511 < t.size)
    (h : s.reader.unread = t.firstBits 511 ++ rest) : DecodeStops s .trieOverflow .trie [] rest := by
  obtain ⟨r, hread, hrest, hopen⟩ := readTrie_overflow t (ntop := 0) (Nat.zero_le _) (hsize.trans_eq (Nat.zero_add _).symm) h
    (Nat.le_add_left Config.nodeCap 0)
  refine .of_decodeFaulted hf (r := r) ?_ hrest (hopen.trans ho)
  simp [exec_decode_of_open ho, decodePhaseTrie, hread]

/-- Phase 1 stops where the input ends inside the nodes that fit `NODE`. -/
theorem decodeStops_inside_trie {t : Trie} {missing : List Bool} (hm : missing ≠ [])
    (h : s.reader.unread ++ missing = t.firstBits 511) : DecodeStops s .corruptStream .trie [] [] := by
  obtain ⟨r, hread, hrest, hopen⟩ := readTrie_ended t (ntop := 0) hm (Nat.zero_le _) h (Nat.le_add_left Config.nodeCap 0)
  refine .of_decodeFaulted hf (r := r) ?_ hrest (hopen.trans ho)
  simp [exec_decode_of_open ho, decodePhaseTrie, hread]

/-- Phase 2 stops where the input ends inside the length. -/
theorem decodeStops_inside_length {root : Trie} {part : List Bool} (hsize : root.size ≤ 511) (hpart : part.length < 32)
    (h : s.reader.unread = root.serialize ++ part) : DecodeStops s .corruptStream .length [] [] := by
  obtain ⟨r, hexec, hunread, hopen⟩ := exec_decode_of_trie ho hsize h
  obtain ⟨r', hread, hrest, hopen'⟩ := Reader.readBits_ended (r := r) (n := 32) (hunread ▸ hpart)
  refine .of_decodeFaulted hf (r := r') ?_ hrest (hopen'.trans hopen)
  simp [hexec, decodePhaseLength, hread]

/-- Phase 3 stops where the input ends inside a code, or before it. -/
theorem decodeStops_inside_code {root : Trie} {n : Word} {symbols : List (Byte × List Bool)} {part : List Bool}
    {next : Byte × List Bool} (hsize : root.size ≤ 511) (hcodes : ∀ c ∈ symbols, c ∈ root.walk []) (hn : symbols.length < n.toNat)
    (hnext : next ∈ root.walk []) (hpre : part <+: next.2) (hne : part ≠ next.2)
    (h : s.reader.unread = root.serialize ++ (bitsMsb n 32 ++ (symbols.flatMap Prod.snd ++ part))) :
    DecodeStops s .corruptStream .symbols (symbols.map Prod.fst) [] := by
  obtain ⟨r, hexec, hunread, hopen⟩ := exec_decode_of_length ho hsize h
  obtain ⟨r', hrun, hrest, hopen'⟩ := decodeSymbols_ended symbols hcodes hn hnext hpre hne s.dout 0#32 hunread
  refine .of_decodeFaulted hf (r := r') ?_ hrest (hopen'.trans hopen)
  simp [hexec, decodePhaseSymbols, hrun]

end

/-- Settles O60: one clause for each place where a phase stops. -/
theorem decodeFaultsWhereTheInputOrTheNodesEnd : Obligations.DecodeFaultsWhereTheInputOrTheNodesEnd := by
  intro s ho hf firstNodes stops
  refine ⟨fun t rest => decodeStops_of_larger_trie ho hf, fun t missing => decodeStops_inside_trie ho hf,
    fun root part => decodeStops_inside_length ho hf, fun root n symbols part next hsize hcodes hn hnext hpre hne h => ?_⟩
  exact decodeStops_inside_code ho hf hsize hcodes hn hnext hpre hne (by simpa only [List.append_assoc] using h)

/-- The trie of `n` internal nodes, each the left child of the one before it: its serialization begins with `n` bits 0. -/
def Trie.leftSpine : Nat → Trie
  | 0 => .leaf 0#8
  | n + 1 => .node (leftSpine n) (.leaf 0#8)

@[simp] theorem Trie.leftSpine_size (n : Nat) : (leftSpine n).size = 2 * n + 1 := by
  induction n with
  | zero => rfl
  | succ n ih => simp [leftSpine, Trie.size, ih]; omega

theorem Trie.leftSpine_firstBits (n : Nat) : (leftSpine n).firstBits n = List.replicate n false := by
  induction n with
  | zero => rfl
  | succ n ih =>
    have hz : n - (2 * n + 1) = 0 := by omega
    simp [leftSpine, Trie.firstBits_node, ih, hz, List.replicate_succ]

/-- Settles O54: 511 internal flags are the first nodes of the left spine with 511 internal nodes. -/
theorem trieOverflowBeforeThe512thFlag : Obligations.TrieOverflowBeforeThe512thFlag := by
  intro s rest ho hf hunread
  rw [← Trie.leftSpine_firstBits] at hunread
  obtain ⟨r, hexec, hrest, hopen⟩ := decodeStops_of_larger_trie ho hf (by rw [Trie.leftSpine_size]; decide) hunread
  rw [List.append_nil] at hexec
  exact ⟨r, hexec, hrest, hopen⟩

/-- Settles O55: by everything `DECODE` can do. -/
theorem decodeFaultLeavesWhatWasReadAndEmitted : Obligations.DecodeFaultLeavesWhatWasReadAndEmitted := by
  intro s t ho hf h hfault
  obtain ⟨hclosed, -⟩ | ⟨-, r, symbols, consumes, hlen, rfl | ⟨code, phase, rfl, hphase, hsymbols, hcode⟩⟩ := execDecode_effect h
  · simp [ho] at hclosed
  · simp [hf] at hfault
  · have hopen : r.isOpen = true := consumes.1.trans ho
    rw [State.raise_of_no_fault (by exact hf)]
    refine ⟨rfl, ?_, hphase, hopen, rfl, ?_, symbols, rfl, Nat.mod_eq_of_lt hlen, hsymbols⟩
    · exact hcode.imp And.left id
    · rintro rfl
      obtain ⟨-, hleft⟩ | ⟨hne, -⟩ := hcode
      · exact Reader.unread_eq_nil.mp hleft
      · cases hne

/-! ## What `DECODE` neither reads nor changes (rule R232) -/

/-- The state with another `PBUF` and another writer. -/
def State.withBuffers (s : State) (m : Memory) (w : Writer) : State := { s with pbuf := m, writer := w }

/-- Whenever the first outcome is a next state, the second is that state with `m` for `PBUF` and `w` for the writer. -/
def NextWithBuffers (m : Memory) (w : Writer) (x y : Result) : Prop := ∀ t, x = .next t → y = .next (t.withBuffers m w)

section
variable (m : Memory) (w : Writer)

theorem NextWithBuffers.next (s : State) : NextWithBuffers m w (.next s) (.next (s.withBuffers m w)) := by
  rintro _ ⟨⟩
  rfl

theorem State.withBuffers_raise (s : State) (code : FaultCode) (opc : Byte) (phase : Phase) :
    (s.withBuffers m w).raise code opc phase = (s.raise code opc phase).withBuffers m w := by
  unfold State.raise State.withBuffers
  split <;> rfl

theorem NextWithBuffers.raise (s : State) (code : FaultCode) (opc : Byte) (phase : Phase) :
    NextWithBuffers m w (.next (s.raise code opc phase)) (.next ((s.withBuffers m w).raise code opc phase)) :=
  s.withBuffers_raise m w code opc phase ▸ .next m w _

theorem NextWithBuffers.ite {p : Prop} [Decidable p] {x x' y y' : Result} (hx : NextWithBuffers m w x x')
    (hy : NextWithBuffers m w y y') : NextWithBuffers m w (if p then x else y) (if p then x' else y') := by
  split
  · exact hx
  · exact hy

theorem decodePhaseSymbols_ignores_buffers (root : Trie) (n : Word) (s : State) :
    NextWithBuffers m w (decodePhaseSymbols root n s) (decodePhaseSymbols root n (s.withBuffers m w)) :=
  .ite m w (.next m w _) (.raise m w _ .corruptStream opDECODE .symbols)

theorem decodePhaseLength_ignores_buffers (root : Trie) (s : State) :
    NextWithBuffers m w (decodePhaseLength root s) (decodePhaseLength root (s.withBuffers m w)) := by
  simp only [decodePhaseLength, State.withBuffers]
  cases s.reader.readBits 32 with
  | ended r => exact .raise m w { s with reader := r } .corruptStream opDECODE .length
  | got n r => exact decodePhaseSymbols_ignores_buffers m w root n { s with reader := r }

theorem decodePhaseTrie_ignores_buffers (s : State) :
    NextWithBuffers m w (decodePhaseTrie s) (decodePhaseTrie (s.withBuffers m w)) := by
  simp only [decodePhaseTrie, State.withBuffers]
  cases readTrie Config.nodeCap 0 s.reader with
  | ended r => exact .raise m w { s with reader := r } .corruptStream opDECODE .trie
  | overflow r => exact .raise m w { s with reader := r } .trieOverflow opDECODE .trie
  | got root ntop r => exact decodePhaseLength_ignores_buffers m w root { s with reader := r }

theorem exec_decode_ignores_buffers (s : State) :
    NextWithBuffers m w (exec .decode s) (exec .decode (s.withBuffers m w)) :=
  .ite m w (.raise m w s .notOpen opDECODE .none) (decodePhaseTrie_ignores_buffers m w _)

end

/-- Settles O56: `PBUF` stays as in every command, the writer as in every `DECODE`, and no phase reads them. -/
theorem decodeIgnoresPbufAndWriter : Obligations.DecodeIgnoresPbufAndWriter := by
  intro s t m w h
  exact ⟨(exec_effect h).keeps_pbuf_and_operands.1, execDecode_writer h, exec_decode_ignores_buffers m w s t h⟩

end Sys2Proof.Machine

/-! # Proofs: the control commands (45_control.md)

Both commands pass the fault gate, so issuing their word is executing them.  `NOP` is the one command of its opcode, and its word the
one that decodes to it; what `SRST` leaves is read off `State.softReset`. -/

namespace Sys2Proof.Machine

/-! ## `NOP` (rule R250) -/

theorem decode_nop : decode 0x00000000#32 = .ok .nop := encodedCommandDecodesToItself .nop

theorem issue_nop (s : State) : issue 0x00000000#32 s = .next s := issue_of_admitted decode_nop (.inr rfl)

/-- No other command has the opcode of `NOP`. -/
theorem eq_nop_of_decode {c : Word} {i : Instr} (hop : opcodeField c = opNOP) (h : decode c = .ok i) : i = .nop := by
  obtain ⟨hm, ho⟩ := decode_eq_ok_iff_matches.mp h
  have row : commandOf opNOP c = some i := by rw [← hop, hm.opcodeField_eq, commandOf_opcode, ho]
  exact (Option.some.inj row).symm

/-- Settles O18: a word with `OP` = 0 that decodes is the encoding of `NOP`, which is 0. -/
theorem nopChangesNothing : Obligations.NopChangesNothing := by
  refine ⟨fun s => ⟨rfl, issue_nop s⟩, decode_nop, fun c hop hne => ?_⟩
  cases hd : decode c with
  | error e => exact ⟨e, rfl⟩
  | ok i =>
    obtain rfl := eq_nop_of_decode hop hd
    exact absurd (encode_of_decode hd).symm hne

/-! ## `SRST` (rule R251) -/

theorem decode_srst : decode 0x00000001#32 = .ok .srst := encodedCommandDecodesToItself .srst

theorem issue_srst (s : State) : issue 0x00000001#32 s = .next s.softReset := issue_of_admitted decode_srst (.inr rfl)

/-- `STATUS` reads the flags only, and a soft reset leaves those of hardware reset. -/
theorem State.softReset_statusWord (s : State) : s.softReset.statusWord = 0#32 :=
  State.resetWith_statusWord s.payloadCap

/-- Settles O19: the fields of a soft reset. -/
theorem srstResetsAllButPbuf : Obligations.SrstResetsAllButPbuf := fun s =>
  ⟨s.softReset, rfl, issue_srst s, s.softReset_statusWord, s.softReset_busy, s.softReset_fault, s.softReset_err, s.softReset_arg,
    s.softReset_result, s.softReset_dcount, s.softReset_paddr, s.softReset_writer, s.softReset_reader, s.softReset_dout,
    s.softReset_pbuf, s.softReset_payloadCap⟩

end Sys2Proof.Machine

/-! # Proofs: the fault record (60_exceptions.md) -/

namespace Sys2Proof.Machine

/-- Settles O21: the two cases of `State.raise`, by whether a fault is recorded. -/
theorem raiseRecordsOnlyTheFirstFault : Obligations.RaiseRecordsOnlyTheFirstFault := fun _ code opc phase =>
  ⟨fun clear => State.raise_of_no_fault clear code opc phase, fun recorded => State.raise_of_fault recorded code opc phase⟩

end Sys2Proof.Machine

/-! # Proofs: reset and hazards (70_reset_and_hazards.md)

The accesses a busy block answers, what a step leaves after `SRST` and after hardware reset, and that neither a command nor the wait
for the host stops the block. -/

namespace Sys2Proof.Machine

/-! ## Accesses while a command runs (rule R300) -/

theorem registerAt_eq_status {offset : Nat} (h : registerAt offset = some .status) : offset = 0x04 := by
  simp only [registerAt, apply_ite (· = some Register.status), Option.some.injEq, reduceCtorEq, ite_self, if_false_right,
    if_false_left, and_true] at h
  exact h.2

/-- `STATUS` is readable whether or not a command runs. -/
theorem step_read_status {s : State} {width offset : Nat} {rest : List HostAction} (hp : s.pending = .read width offset :: rest)
    (hr : accessTarget width offset = some .status) : step s = .next (hostRead { s with pending := rest } .status) := by
  simp [step_of_pending_cons hp, perform, hr]

theorem step_read_of_busy {s : State} {width offset : Nat} {rest : List HostAction} {reg : Register} (hb : s.busy = true)
    (hp : s.pending = .read width offset :: rest) (hr : accessTarget width offset = some reg) (hne : reg ≠ .status) :
    step s = .refused (.accessWhileBusy offset) := by
  simp [step_of_pending_cons hp, perform, hr, hb, hne]

theorem step_write_of_busy {s : State} {width offset : Nat} {data : Word} {stream : List Byte} {rest : List HostAction}
    {reg : Register} (hb : s.busy = true) (hp : s.pending = .write width offset data stream :: rest)
    (hr : accessTarget width offset = some reg) : step s = .refused (.accessWhileBusy offset) := by
  simp [step_of_pending_cons hp, perform, hr, hb]

/-- Settles O9: the offset is a register's, and of the registers only `STATUS` is at 0x04. -/
theorem whileBusyOnlyStatusIsRead : Obligations.WhileBusyOnlyStatusIsRead := by
  intro s offset rest hb haligned hle
  obtain ⟨reg, hr⟩ := Option.isSome_iff_exists.mp (accessTarget_isSome_iff.mpr ⟨rfl, haligned, hle⟩)
  refine ⟨fun hp => ⟨?_, fun hne => ?_⟩, fun d stream hp => step_write_of_busy hb hp hr⟩
  · rintro rfl
    rw [step_read_status hp rfl, hostRead, readValue_pending]
    rfl
  · have other : reg ≠ .status := by
      rintro rfl
      exact hne (registerAt_eq_status hr)
    exact step_read_of_busy hb hp hr other

/-! ## The block always goes on (rules R291 and R308) -/

/-- Settles O24: each command ends in a next state, a fault being one too. -/
theorem everyCommandCompletes : Obligations.EveryCommandCompletes := exec_completes

/-- Settles O7: a step performs the next host action, and there is none. -/
theorem blockWaitsForTheHost : Obligations.BlockWaitsForTheHost := fun _ => step_of_pending_nil

/-! ## `SRST` and hardware reset (rule R292) -/

/-- A step that issues `SRST` is a soft reset: what it sets while the command runs, the reset clears. -/
theorem step_srst {s : State} {stream : List Byte} {rest : List HostAction} (hb : s.busy = false)
    (hp : s.pending = .write 32 0x00 0x00000001#32 stream :: rest) : step s = .next ({ s with pending := rest } : State).softReset :=
  (step_write hb hp rfl).trans (writeCMD_of_issue (issue_srst _))

theorem step_hardReset {s : State} {rest : List HostAction} (hp : s.pending = .hardReset :: rest) :
    step s = .next ({ s with pending := rest } : State).hardReset := step_of_pending_cons hp

theorem State.hardReset_eq_softReset (s : State) :
    s.hardReset = { s.softReset with pbuf := [], undefDraws := s.undefDraws + 1 } := rfl

/-- Settles O20: the two resets of one state. -/
theorem srstAndResetDifferOnlyInPbuf : Obligations.SrstAndResetDifferOnlyInPbuf := by
  intro s stream rest hb hp
  let begun : State := { s with pending := rest }
  exact ⟨begun.softReset, begun.hardReset, s.undefDraws + 1, step_srst hb hp, step_hardReset rfl, begun.softReset_pbuf,
    Memory.read_nil, begun.hardReset_eq_softReset⟩

end Sys2Proof.Machine
